-- ==== Sys2Proof/Word.lean ====
section
/-! DEFINITION. The word and byte types (00_scope.md R10, R13): every register, PC, HI, LO, address and memory
word is a 32-bit pattern. -/

namespace Sys2Proof

/-- A 32-bit pattern (R13). `+`, `-` and `*` on it are modulo 2^32. -/
abbrev Word := BitVec 32

/-- The 8-bit unit of memory (R45). -/
abbrev Byte := BitVec 8

end Sys2Proof
end

