-- ==== Sys2Proof/Syntax.lean ====
section
/-! DEFINITION. The instructions: one constructor per row of opcode_table.json, with the fields the row reads
(30_encoding.md R74 to R76; operand order of R81). What the decoder answers for the other words stands beside it
(R73, R77, R78). -/

namespace Sys2Proof

/-- A general-register index, 0 to 31 (10_state.md R21). -/
abbrev Reg := Fin 32

/-- A constant shift amount, 0 to 31 (30_encoding.md R72). -/
abbrev Shamt := Fin 32

/-- One constructor per row of opcode_table.json. `lui`, `blez` and `bgtz` carry the field that R78 requires to be 0. -/
inductive Instr where
  | sll (rd rt : Reg) (shamt : Shamt)
  | srl (rd rt : Reg) (shamt : Shamt)
  | sra (rd rt : Reg) (shamt : Shamt)
  | sllv (rd rt rs : Reg)
  | srlv (rd rt rs : Reg)
  | srav (rd rt rs : Reg)
  | jr (rs : Reg)
  | jalr (rd rs : Reg)
  | mfhi (rd : Reg)
  | mthi (rs : Reg)
  | mflo (rd : Reg)
  | mtlo (rs : Reg)
  | mult (rs rt : Reg)
  | multu (rs rt : Reg)
  | div (rs rt : Reg)
  | divu (rs rt : Reg)
  | add (rd rs rt : Reg)
  | addu (rd rs rt : Reg)
  | sub (rd rs rt : Reg)
  | subu (rd rs rt : Reg)
  | and (rd rs rt : Reg)
  | or (rd rs rt : Reg)
  | xor (rd rs rt : Reg)
  | nor (rd rs rt : Reg)
  | slt (rd rs rt : Reg)
  | sltu (rd rs rt : Reg)
  | syscall
  | addi (rt rs : Reg) (imm16 : BitVec 16)
  | addiu (rt rs : Reg) (imm16 : BitVec 16)
  | andi (rt rs : Reg) (imm16 : BitVec 16)
  | ori (rt rs : Reg) (imm16 : BitVec 16)
  | xori (rt rs : Reg) (imm16 : BitVec 16)
  | lui (rt rs : Reg) (imm16 : BitVec 16)
  | beq (rs rt : Reg) (imm16 : BitVec 16)
  | bne (rs rt : Reg) (imm16 : BitVec 16)
  | blez (rs rt : Reg) (imm16 : BitVec 16)
  | bgtz (rs rt : Reg) (imm16 : BitVec 16)
  | bltz (rs : Reg) (imm16 : BitVec 16)
  | bgez (rs : Reg) (imm16 : BitVec 16)
  | bltzal (rs : Reg) (imm16 : BitVec 16)
  | bgezal (rs : Reg) (imm16 : BitVec 16)
  | j (target26 : BitVec 26)
  | jal (target26 : BitVec 26)
  | lb (rt rs : Reg) (imm16 : BitVec 16)
  | lh (rt rs : Reg) (imm16 : BitVec 16)
  | lw (rt rs : Reg) (imm16 : BitVec 16)
  | lbu (rt rs : Reg) (imm16 : BitVec 16)
  | lhu (rt rs : Reg) (imm16 : BitVec 16)
  | sb (rt rs : Reg) (imm16 : BitVec 16)
  | sh (rt rs : Reg) (imm16 : BitVec 16)
  | sw (rt rs : Reg) (imm16 : BitVec 16)
deriving DecidableEq, Repr

/-- An unrecognised word (R77), by the selector that no row names (40_dispatch.md R94). -/
inductive Unknown where
  | op (value : BitVec 6)
  | funct (value : BitVec 6)
  | regimm (value : BitVec 5)
deriving DecidableEq, Repr

/-- The three instructions that have an illegal operand combination (R78). -/
inductive Illegal where
  | lui
  | blez
  | bgtz
deriving DecidableEq, Repr

/-- What a 32-bit word is (R73): an instruction of the table, unrecognised, or an illegal operand combination. -/
inductive Decoded where
  | instr (i : Instr)
  | unknown (u : Unknown)
  | illegal (m : Illegal)
deriving DecidableEq, Repr

end Sys2Proof
end

