-- ==== Sys2Proof/WellFormed.lean ====
section
/-! DEFINITION. Which terms of `Instr` are instructions of the CORE: the operand checks of 30_encoding.md R78.
Register indexes, shift amounts and immediates are in range by their types (R62). -/

namespace Sys2Proof

/-- R78: LUI needs rs = 0, BLEZ and BGTZ need rt = 0. "No other instruction has an illegal field value". -/
def Instr.wf : Instr → Bool
  | .lui _ rs _ => rs == 0
  | .blez _ rt _ => rt == 0
  | .bgtz _ rt _ => rt == 0
  | .sll .. | .srl .. | .sra .. | .sllv .. | .srlv .. | .srav .. => true
  | .jr .. | .jalr .. | .mfhi .. | .mthi .. | .mflo .. | .mtlo .. => true
  | .mult .. | .multu .. | .div .. | .divu .. => true
  | .add .. | .addu .. | .sub .. | .subu .. | .and .. | .or .. | .xor .. | .nor .. | .slt .. | .sltu .. => true
  | .syscall => true
  | .addi .. | .addiu .. | .andi .. | .ori .. | .xori .. => true
  | .beq .. | .bne .. | .bltz .. | .bgez .. | .bltzal .. | .bgezal .. => true
  | .j .. | .jal .. => true
  | .lb .. | .lh .. | .lw .. | .lbu .. | .lhu .. | .sb .. | .sh .. | .sw .. => true

end Sys2Proof
end

