-- ==== Sys2Proof/Decode.lean ====
section
/-! DEFINITION. The Instruction Decoder (30_encoding.md): field extraction (R61), the dispatch key (40_dispatch.md R93),
the byte layout of an instruction word (20_memory.md R46), and the encoder. -/

namespace Sys2Proof

/-- The word whose bytes, from its address upward, are these: little-endian (R46; log 3). -/
def wordOfBytes (b0 b1 b2 b3 : Byte) : Word := b3 ++ b2 ++ b1 ++ b0

/-- Byte `k` of a word, `k = 0` the one at the word's own address (R45). -/
def byteOfWord (w : Word) (k : Nat) : Byte := w.extractLsb' (8 * k) 8

/-- A 5-bit field as a register index or shift amount. -/
def indexOfField (f : BitVec 5) : Fin 32 := ⟨f.toNat, f.isLt⟩

/-- The 5-bit field that holds a register index or shift amount. -/
def fieldOfIndex (r : Fin 32) : BitVec 5 := ⟨r⟩

/-- The field record of R61: "every field is extracted from every word". -/
structure Fields where
  op : BitVec 6
  rs : Reg
  rt : Reg
  rd : Reg
  shamt : Shamt
  funct : BitVec 6
  imm16 : BitVec 16
  target26 : BitVec 26
deriving DecidableEq, Repr

def opOf (w : Word) : BitVec 6 := w.extractLsb' 26 6
def rsBits (w : Word) : BitVec 5 := w.extractLsb' 21 5
def rtBits (w : Word) : BitVec 5 := w.extractLsb' 16 5
def rdBits (w : Word) : BitVec 5 := w.extractLsb' 11 5
def shamtBits (w : Word) : BitVec 5 := w.extractLsb' 6 5
def functOf (w : Word) : BitVec 6 := w.extractLsb' 0 6
def imm16Of (w : Word) : BitVec 16 := w.extractLsb' 0 16
def target26Of (w : Word) : BitVec 26 := w.extractLsb' 0 26
def rsOf (w : Word) : Reg := indexOfField (rsBits w)
def rtOf (w : Word) : Reg := indexOfField (rtBits w)
def rdOf (w : Word) : Reg := indexOfField (rdBits w)
def shamtOf (w : Word) : Shamt := indexOfField (shamtBits w)

/-- R61, R62: total on every word. -/
def fieldsOf (w : Word) : Fields :=
  { op := opOf w, rs := rsOf w, rt := rtOf w, rd := rdOf w, shamt := shamtOf w, funct := functOf w,
    imm16 := imm16Of w, target26 := target26Of w }

/-- The function map under op = 0x00 (R75). -/
def decodeFunct (f : Fields) : Decoded :=
  match f.funct with
  | 0x00#6 => .instr (.sll f.rd f.rt f.shamt)
  | 0x02#6 => .instr (.srl f.rd f.rt f.shamt)
  | 0x03#6 => .instr (.sra f.rd f.rt f.shamt)
  | 0x04#6 => .instr (.sllv f.rd f.rt f.rs)
  | 0x06#6 => .instr (.srlv f.rd f.rt f.rs)
  | 0x07#6 => .instr (.srav f.rd f.rt f.rs)
  | 0x08#6 => .instr (.jr f.rs)
  | 0x09#6 => .instr (.jalr f.rd f.rs)
  | 0x0c#6 => .instr .syscall
  | 0x10#6 => .instr (.mfhi f.rd)
  | 0x11#6 => .instr (.mthi f.rs)
  | 0x12#6 => .instr (.mflo f.rd)
  | 0x13#6 => .instr (.mtlo f.rs)
  | 0x18#6 => .instr (.mult f.rs f.rt)
  | 0x19#6 => .instr (.multu f.rs f.rt)
  | 0x1a#6 => .instr (.div f.rs f.rt)
  | 0x1b#6 => .instr (.divu f.rs f.rt)
  | 0x20#6 => .instr (.add f.rd f.rs f.rt)
  | 0x21#6 => .instr (.addu f.rd f.rs f.rt)
  | 0x22#6 => .instr (.sub f.rd f.rs f.rt)
  | 0x23#6 => .instr (.subu f.rd f.rs f.rt)
  | 0x24#6 => .instr (.and f.rd f.rs f.rt)
  | 0x25#6 => .instr (.or f.rd f.rs f.rt)
  | 0x26#6 => .instr (.xor f.rd f.rs f.rt)
  | 0x27#6 => .instr (.nor f.rd f.rs f.rt)
  | 0x2a#6 => .instr (.slt f.rd f.rs f.rt)
  | 0x2b#6 => .instr (.sltu f.rd f.rs f.rt)
  | other => .unknown (.funct other)

/-- The REGIMM map under op = 0x01, keyed by the rt field (R76; log 9 for the values no row names). -/
def decodeRegimm (f : Fields) : Decoded :=
  match fieldOfIndex f.rt with
  | 0x00#5 => .instr (.bltz f.rs f.imm16)
  | 0x01#5 => .instr (.bgez f.rs f.imm16)
  | 0x10#5 => .instr (.bltzal f.rs f.imm16)
  | 0x11#5 => .instr (.bgezal f.rs f.imm16)
  | other => .unknown (.regimm other)

/-- R78: a recognised op whose operand field must be 0 (`ok`) is otherwise the illegal form. -/
def legalOr (ok : Bool) (m : Illegal) (i : Instr) : Decoded := if ok then .instr i else .illegal m

/-- The dispatch key of R93 on a field record: op, then funct (R75) or rt (R76), then operand legality (R78); the op
numbers from 0x08 upward are R74's (log 11). -/
def decodeFields (f : Fields) : Decoded :=
  match f.op with
  | 0x00#6 => decodeFunct f
  | 0x01#6 => decodeRegimm f
  | 0x02#6 => .instr (.j f.target26)
  | 0x03#6 => .instr (.jal f.target26)
  | 0x04#6 => .instr (.beq f.rs f.rt f.imm16)
  | 0x05#6 => .instr (.bne f.rs f.rt f.imm16)
  | 0x06#6 => legalOr (f.rt == 0) .blez (.blez f.rs f.rt f.imm16)
  | 0x07#6 => legalOr (f.rt == 0) .bgtz (.bgtz f.rs f.rt f.imm16)
  | 0x08#6 => .instr (.addi f.rt f.rs f.imm16)
  | 0x09#6 => .instr (.addiu f.rt f.rs f.imm16)
  | 0x0c#6 => .instr (.andi f.rt f.rs f.imm16)
  | 0x0d#6 => .instr (.ori f.rt f.rs f.imm16)
  | 0x0e#6 => .instr (.xori f.rt f.rs f.imm16)
  | 0x0f#6 => legalOr (f.rs == 0) .lui (.lui f.rt f.rs f.imm16)
  | 0x20#6 => .instr (.lb f.rt f.rs f.imm16)
  | 0x21#6 => .instr (.lh f.rt f.rs f.imm16)
  | 0x23#6 => .instr (.lw f.rt f.rs f.imm16)
  | 0x24#6 => .instr (.lbu f.rt f.rs f.imm16)
  | 0x25#6 => .instr (.lhu f.rt f.rs f.imm16)
  | 0x28#6 => .instr (.sb f.rt f.rs f.imm16)
  | 0x29#6 => .instr (.sh f.rt f.rs f.imm16)
  | 0x2b#6 => .instr (.sw f.rt f.rs f.imm16)
  | other => .unknown (.op other)

/-- What a word is: every word has exactly one answer (R62, R73, R96). -/
def decodeWord (w : Word) : Decoded := decodeFields (fieldsOf w)

/-- An instruction read from the front of a list of bytes, and the bytes after it; `none` only where fewer than the
four bytes of an instruction (R60) are there. -/
def decodeBytes : List Byte → Option (Decoded × List Byte)
  | b0 :: b1 :: b2 :: b3 :: rest => some (decodeWord (wordOfBytes b0 b1 b2 b3), rest)
  | _ => none

/-- The four bytes of a word from its address upward (R46). -/
def bytesOfWord (w : Word) : List Byte := [byteOfWord w 0, byteOfWord w 1, byteOfWord w 2, byteOfWord w 3]

/-- The word whose bits, numbered as opcode_table.json numbers them, are the low `nbits` bits of `w`; the rest are 0. -/
def tableWord (nbits w : Nat) : Word := BitVec.ofNat 32 (w % 2 ^ nbits)

/-- The instruction the decoder reads from the bytes of a table row's word; none for an unrecognised or illegal word. -/
def decodeTableWord (nbits w : Nat) : Option Instr :=
  match decodeBytes (bytesOfWord (tableWord nbits w)) with
  | some (.instr i, _) => some i
  | some (.unknown _, _) => none
  | some (.illegal _, _) => none
  | none => none

/-! ### The encoder -/

/-- R-format (R61), op = 0x00. -/
def encodeR (rs rt rd : Reg) (shamt : Shamt) (funct : BitVec 6) : Word :=
  0x00#6 ++ fieldOfIndex rs ++ fieldOfIndex rt ++ fieldOfIndex rd ++ fieldOfIndex shamt ++ funct

/-- I-format (R61). -/
def encodeI (op : BitVec 6) (rs rt : Reg) (imm16 : BitVec 16) : Word :=
  op ++ fieldOfIndex rs ++ fieldOfIndex rt ++ imm16

/-- J-format (R61). -/
def encodeJ (op : BitVec 6) (target26 : BitVec 26) : Word := op ++ target26

/-- The word of an instruction (R74 to R76), with 0 in every field the instruction ignores (R79). -/
def encode : Instr → Word
  | .sll rd rt shamt => encodeR 0 rt rd shamt 0x00#6
  | .srl rd rt shamt => encodeR 0 rt rd shamt 0x02#6
  | .sra rd rt shamt => encodeR 0 rt rd shamt 0x03#6
  | .sllv rd rt rs => encodeR rs rt rd 0 0x04#6
  | .srlv rd rt rs => encodeR rs rt rd 0 0x06#6
  | .srav rd rt rs => encodeR rs rt rd 0 0x07#6
  | .jr rs => encodeR rs 0 0 0 0x08#6
  | .jalr rd rs => encodeR rs 0 rd 0 0x09#6
  | .syscall => encodeR 0 0 0 0 0x0c#6
  | .mfhi rd => encodeR 0 0 rd 0 0x10#6
  | .mthi rs => encodeR rs 0 0 0 0x11#6
  | .mflo rd => encodeR 0 0 rd 0 0x12#6
  | .mtlo rs => encodeR rs 0 0 0 0x13#6
  | .mult rs rt => encodeR rs rt 0 0 0x18#6
  | .multu rs rt => encodeR rs rt 0 0 0x19#6
  | .div rs rt => encodeR rs rt 0 0 0x1a#6
  | .divu rs rt => encodeR rs rt 0 0 0x1b#6
  | .add rd rs rt => encodeR rs rt rd 0 0x20#6
  | .addu rd rs rt => encodeR rs rt rd 0 0x21#6
  | .sub rd rs rt => encodeR rs rt rd 0 0x22#6
  | .subu rd rs rt => encodeR rs rt rd 0 0x23#6
  | .and rd rs rt => encodeR rs rt rd 0 0x24#6
  | .or rd rs rt => encodeR rs rt rd 0 0x25#6
  | .xor rd rs rt => encodeR rs rt rd 0 0x26#6
  | .nor rd rs rt => encodeR rs rt rd 0 0x27#6
  | .slt rd rs rt => encodeR rs rt rd 0 0x2a#6
  | .sltu rd rs rt => encodeR rs rt rd 0 0x2b#6
  | .bltz rs imm16 => encodeI 0x01#6 rs 0x00 imm16
  | .bgez rs imm16 => encodeI 0x01#6 rs 0x01 imm16
  | .bltzal rs imm16 => encodeI 0x01#6 rs 0x10 imm16
  | .bgezal rs imm16 => encodeI 0x01#6 rs 0x11 imm16
  | .j target26 => encodeJ 0x02#6 target26
  | .jal target26 => encodeJ 0x03#6 target26
  | .beq rs rt imm16 => encodeI 0x04#6 rs rt imm16
  | .bne rs rt imm16 => encodeI 0x05#6 rs rt imm16
  | .blez rs rt imm16 => encodeI 0x06#6 rs rt imm16
  | .bgtz rs rt imm16 => encodeI 0x07#6 rs rt imm16
  | .addi rt rs imm16 => encodeI 0x08#6 rs rt imm16
  | .addiu rt rs imm16 => encodeI 0x09#6 rs rt imm16
  | .andi rt rs imm16 => encodeI 0x0c#6 rs rt imm16
  | .ori rt rs imm16 => encodeI 0x0d#6 rs rt imm16
  | .xori rt rs imm16 => encodeI 0x0e#6 rs rt imm16
  | .lui rt rs imm16 => encodeI 0x0f#6 rs rt imm16
  | .lb rt rs imm16 => encodeI 0x20#6 rs rt imm16
  | .lh rt rs imm16 => encodeI 0x21#6 rs rt imm16
  | .lw rt rs imm16 => encodeI 0x23#6 rs rt imm16
  | .lbu rt rs imm16 => encodeI 0x24#6 rs rt imm16
  | .lhu rt rs imm16 => encodeI 0x25#6 rs rt imm16
  | .sb rt rs imm16 => encodeI 0x28#6 rs rt imm16
  | .sh rt rs imm16 => encodeI 0x29#6 rs rt imm16
  | .sw rt rs imm16 => encodeI 0x2b#6 rs rt imm16

/-- The bits of the word the decoder reads for the instruction: all but the ignored fields of R75 (R79, log 10). -/
def Instr.readMask : Instr → Word
  | .sll .. | .srl .. | .sra .. => 0xfc1fffff#32
  | .sllv .. | .srlv .. | .srav .. => 0xfffff83f#32
  | .add .. | .addu .. | .sub .. | .subu .. | .and .. | .or .. | .xor .. | .nor .. | .slt .. | .sltu .. => 0xfffff83f#32
  | .jr .. | .mthi .. | .mtlo .. => 0xffe0003f#32
  | .jalr .. => 0xffe0f83f#32
  | .mfhi .. | .mflo .. => 0xfc00f83f#32
  | .mult .. | .multu .. | .div .. | .divu .. => 0xffff003f#32
  | .syscall => 0xfc00003f#32
  | .addi .. | .addiu .. | .andi .. | .ori .. | .xori .. | .lui .. => 0xffffffff#32
  | .beq .. | .bne .. | .blez .. | .bgtz .. | .bltz .. | .bgez .. | .bltzal .. | .bgezal .. => 0xffffffff#32
  | .j .. | .jal .. => 0xffffffff#32
  | .lb .. | .lh .. | .lw .. | .lbu .. | .lhu .. | .sb .. | .sh .. | .sw .. => 0xffffffff#32

end Sys2Proof
end

