-- ==== Sys2Proof/Config.lean ====
section
/-! DEFINITION. The open parameters of 00_scope.md R11 that are fixed for one machine: MEM, HARDWIRED_ZERO and DIV0, and
the free values behind them. (`INIT` is any `State`.) -/

namespace Sys2Proof

/-- Which divide instruction found the zero divisor: the info field of `DivideByZero` (60_exceptions.md R231). -/
inductive DivKind where
  | div
  | divu
deriving DecidableEq, Repr

/-- The policy `DIV0` for a zero divisor (42_muldiv_hilo.md R133; 93_implementation_defined.md U1). -/
inductive Div0Policy where
  /-- HI and LO are not written: the rule R133 states, the spec's choice in R11 (D8). -/
  | unchanged
  /-- HI and LO take values nothing is known of: U1's "any value", for claims that hold whatever the policy. -/
  | anyValue
deriving DecidableEq, Repr

/-- One call on the memory port (20_memory.md R40). -/
inductive MemCall where
  | read (address : Word)
  | write (address value : Word)
deriving DecidableEq, Repr

/-- The parameter `MEM`: which memory collaborator answers the port (R11, 92_eei_decisions.md D4). -/
inductive MemCollaborator where
  /-- The reference memory of 20_memory.md R45: the spec's choice in R11 (log 3). -/
  | reference
  /-- A collaborator of which nothing is known but that its answers are its own (93_implementation_defined.md U2 to U5,
  log 15); the number tells one from another. -/
  | other (which : Nat)
deriving DecidableEq, Repr

/-- The parameters a machine is built with (R11). No step changes them. -/
structure Config where
  /-- `MEM`: `read_word` and `write_word`; the contents are State's. -/
  mem : MemCollaborator
  /-- `HARDWIRED_ZERO`: the layer above the CORE forces REGS[0] to 0 after each step (10_state.md R22). -/
  hardwiredZero : Bool
  /-- `DIV0`: HI and LO after DIV or DIVU by zero. -/
  div0 : Div0Policy
deriving DecidableEq, Repr

/-- The column "spec's choice" of R11. -/
def Config.specChoice : Config := { mem := .reference, hardwiredZero := false, div0 := .unchanged }

/-- FREE VALUE (log 6): the new (HI, LO) of DIV or DIVU by zero under `Div0Policy.anyValue`, as a function of the old
HI, the old LO and the dividend (92_eei_decisions.md D8). It has no body: nothing is known of its values. -/
opaque Config.div0Result (kind : DivKind) (oldHi oldLo dividend : Word) : Word × Word

/-- FREE VALUE (log 15): what `read_word` of another collaborator answers, as a function of which one it is, the contents
it started with, the writes it has accepted since, oldest first, and the address. A read has no side effect (20_memory.md
R50), so no earlier read is among the arguments. It has no body: nothing is known of its values. -/
opaque Config.otherRead (which : Nat) (initial : List (Nat × Byte)) (writes : List (Word × Word)) (address : Word) : Word

/-- FREE VALUE (log 15): whether another collaborator faults on a call (U4), of the same arguments. It has no body. -/
opaque Config.otherFaults (which : Nat) (initial : List (Nat × Byte)) (writes : List (Word × Word)) (call : MemCall) : Bool

end Sys2Proof
end

