-- ==== Sys2Proof/Machine/State.lean ====
section
/-! DEFINITION. The machine's state as plain data: the architectural state (10_state.md R25: PC, REGS, HI, LO), the
memory behind the port (20_memory.md R45), the run flag (R28), the output ports of the last step (R32), and the
parameters (00_scope.md R11). -/

namespace Sys2Proof.Machine

/-- Memory contents: (address, byte) pairs, addresses strictly rising, none equal to what an unlisted address reads as
(`Memory.wf` in Machine/Ops.lean). -/
abbrev Memory := List Host.Cell

/-- The step's diagnostic output (60_exceptions.md R231; its text belongs to the front end, log 4). -/
inductive Diag where
  | none
  | unknownOp (op : BitVec 6)
  | unknownFunct (funct : BitVec 6)
  | unknownRegimm (rt : BitVec 5)
  | illegalOperand (m : Illegal)
  | divideByZero (kind : DivKind)
deriving DecidableEq, Repr

/-- The CORE's output ports during the most recent step (R32). They are no architectural state: no later step reads
them (R33). -/
structure StepOutput where
  /-- `run_clear`: the step cleared the run flag. -/
  runClear : Bool
  /-- `diag`. -/
  diag : Diag
  /-- The memory port: the step's calls, the first call first (20_memory.md R41, R42). -/
  calls : List MemCall
deriving DecidableEq, Repr

/-- The outputs before a step has put anything on them (40_dispatch.md R93 `diag <- None`). -/
def StepOutput.idle : StepOutput := { runClear := false, diag := .none, calls := [] }

structure State where
  /-- The program counter (R24): no alignment is forced. -/
  pc : Word
  /-- REGS[0..31] (R21). Index 0 is an ordinary register (R22). -/
  regs : Vector Word 32
  /-- HI and LO (R27). -/
  hi : Word
  lo : Word
  /-- The contents of the one address space (20_memory.md R48); with another collaborator than the reference memory, the
  contents it started with. -/
  mem : Memory
  /-- The writes another collaborator than the reference memory has accepted, oldest first: with `mem`, all that its
  answers depend on (log 15). The reference memory keeps its contents in `mem` and leaves this empty. -/
  writes : List (Word × Word)
  /-- The front end's run flag (R28). -/
  run : Bool
  /-- Output ports of the last step (R32). -/
  out : StepOutput
  /-- Parameters MEM, HARDWIRED_ZERO and DIV0 (R11; log 5). -/
  cfg : Config
deriving DecidableEq, Repr

/-- Why a step ends in a fault. The CORE itself raises none (60_exceptions.md R230). -/
inductive Fault where
  /-- Raised by the fetch, a load or a store where the memory collaborator faults on the call the CORE makes: "a
  collaborator that faults makes the model fault, which the CORE itself never does" (93_implementation_defined.md U4).
  The reference memory never does (20_memory.md R45). Safe: nothing is claimed of what follows (log 15). -/
  | memoryCollaborator (call : MemCall)
deriving DecidableEq, Repr

/-- Why no step is taken. -/
inductive Refusal where
  /-- Raised only by a stub arm of `exec`: the instruction has no meaning in the model yet. Safe. -/
  | notModelled (mnemonic : String)
  /-- Raised by `step` while the run flag is false: such a state is final and has no step (40_dispatch.md R97,
  93_implementation_defined.md U12; log 8). Safe: nothing is claimed of a step the spec does not define. -/
  | runFlagClear
deriving DecidableEq, Repr

/-- What executing one instruction gives. -/
abbrev Result := Host.Outcome State Fault Refusal

/-- The start of a run (10_state.md R36, 70_reset_and_hazards.md R250). The spec gives no value but the run flag's: PC,
the registers, HI, LO and memory are the parameter INIT, here the start state of 95_test_vectors.md's conventions
(DESIGN CHOICE, logs 1, 2 and 4); the parameters are R11's "spec's choice". -/
def State.reset : State :=
  { pc := 0x00400000#32
    regs := Vector.replicate 32 0#32
    hi := 0#32
    lo := 0#32
    mem := []
    writes := []
    run := true
    out := StepOutput.idle
    cfg := Config.specChoice }

end Sys2Proof.Machine
end

