-- ==== Sys2Proof/Machine/Ops.lean ====
section
/-! DEFINITION. The named operations over memory, registers, PC and output ports that the meanings are written with. -/

namespace Sys2Proof.Machine

/-! ### The reference memory of 20_memory.md R45 (log 3) -/

/-- What an address that is not listed reads as: 0, "every byte 0 unless stated" (95_test_vectors.md; DESIGN CHOICE,
log 2). -/
def Memory.unlisted : Byte := 0#8

/-- The canonical form: addresses of the 32-bit space strictly rising, no entry that an unlisted address reads as. -/
abbrev Memory.wf (m : Memory) : Prop :=
  m.Pairwise (fun c d => c.1 < d.1) ∧ ∀ c ∈ m, c.1 < 2 ^ 32 ∧ c.2 ≠ Memory.unlisted

/-- The byte listed for an address, else the unlisted byte. -/
def Memory.find (a : Nat) : Memory → Byte
  | [] => Memory.unlisted
  | c :: rest => if c.1 = a then c.2 else Memory.find a rest

/-- The memory without an entry for an address. -/
def Memory.dropKey (a : Nat) (m : Memory) : Memory := m.filter (fun c => c.1 != a)

/-- An entry put before the first higher address. -/
def Memory.insertKey (a : Nat) (b : Byte) : Memory → Memory
  | [] => [(a, b)]
  | c :: rest => if c.1 < a then c :: Memory.insertKey a b rest else (a, b) :: c :: rest

/-- The memory with one byte replaced, in canonical form: a byte equal to the unlisted one is not listed. -/
def Memory.put (a : Nat) (b : Byte) (m : Memory) : Memory :=
  if b = Memory.unlisted then m.dropKey a else (m.dropKey a).insertKey a b

/-- `m[a]` (R45). -/
def Memory.readByte (m : Memory) (a : Word) : Byte := m.find a.toNat

/-- `m[a] <- b` (R45). -/
def Memory.writeByte (m : Memory) (a : Word) (b : Byte) : Memory := m.put a.toNat b

/-- `read_word(a)` (R45): four consecutive bytes, any alignment, addresses modulo 2^32. -/
def Memory.readWord (m : Memory) (a : Word) : Word :=
  wordOfBytes (m.readByte a) (m.readByte (a + 1#32)) (m.readByte (a + 2#32)) (m.readByte (a + 3#32))

/-- `write_word(a, v)` (R45). -/
def Memory.writeWord (m : Memory) (a v : Word) : Memory :=
  (((m.writeByte a (byteOfWord v 0)).writeByte (a + 1#32) (byteOfWord v 1)).writeByte (a + 2#32)
    (byteOfWord v 2)).writeByte (a + 3#32) (byteOfWord v 3)

/-! ### Registers, HI, LO and PC (10_state.md) -/

/-- `x[r]` (R21). -/
def State.reg (s : State) (r : Reg) : Word := s.regs[r]

/-- `x[r] <- v`, register 0 included (R22). -/
def State.setReg (s : State) (r : Reg) (v : Word) : State := { s with regs := s.regs.set r v }

/-- `HI <- v` (R27). -/
def State.setHi (s : State) (v : Word) : State := { s with hi := v }

/-- `LO <- v` (R27). -/
def State.setLo (s : State) (v : Word) : State := { s with lo := v }

/-- `pc <- target` (R24). -/
def State.setPc (s : State) (target : Word) : State := { s with pc := target }

/-- The address of the next instruction in sequence, and the link value (40_dispatch.md R92, 45_jump.md R190), modulo
2^32 (log 12). -/
def State.nextPc (s : State) : Word := s.pc + 4#32

/-- The link register "architecturally fixed at index 31" (R23). -/
def linkReg : Reg := 31

/-- The register SYSCALL reads (R23). -/
def serviceReg : Reg := 2

/-! ### Output ports and the run flag -/

/-- `report d` (00_scope.md R17). -/
def State.report (s : State) (d : Diag) : State := { s with out := { s.out with diag := d } }

/-- `clear_run()` (R17, R28): the flag is false and `run_clear` is asserted (R32). -/
def State.clearRun (s : State) : State := { s with run := false, out := { s.out with runClear := true } }

/-- A call put on the memory port after those the step has made (20_memory.md R42). -/
def State.call (s : State) (c : MemCall) : State := { s with out := { s.out with calls := s.out.calls ++ [c] } }

/-! ### The memory port: the parameter MEM (00_scope.md R11) -/

/-- `read_word(a)` of the collaborator (20_memory.md R40). -/
def State.readWord (s : State) (a : Word) : Word :=
  match s.cfg.mem with
  | .reference => s.mem.readWord a
  | .other n => Config.otherRead n s.mem s.writes a

/-- `write_word(a, v)` of the collaborator (R40). -/
def State.writeWord (s : State) (a v : Word) : State :=
  { s with
    mem := match s.cfg.mem with
      | .reference => s.mem.writeWord a v
      | .other _ => s.mem
    writes := match s.cfg.mem with
      | .reference => s.writes
      | .other _ => s.writes ++ [(a, v)] }

/-- Whether the collaborator faults on this call (93_implementation_defined.md U4); the reference memory never does. -/
def State.memFaults (s : State) (c : MemCall) : Bool :=
  match s.cfg.mem with
  | .reference => false
  | .other n => Config.otherFaults n s.mem s.writes c

/-- `MemRead(a, 4)` (00_scope.md R16): what follows is given the word, and the state in which the call has been made. -/
def State.memRead (s : State) (a : Word) (k : Word → State → Result) : Result :=
  if s.memFaults (.read a) then .fault (.memoryCollaborator (.read a)) else k (s.readWord a) (s.call (.read a))

/-- `MemWrite(a, 4, v)` (R16): what follows is given the state in which the call has been made. -/
def State.memWrite (s : State) (a v : Word) (k : State → Result) : Result :=
  if s.memFaults (.write a v) then .fault (.memoryCollaborator (.write a v))
  else k ((s.writeWord a v).call (.write a v))

/-! ### How an instruction ends -/

/-- The default PC rule (40_dispatch.md R92) on a state whose PC is still that of the instruction. -/
def State.advance (s : State) : Result := .next (s.setPc s.nextPc)

/-- `x[r] <- v; pc <- pc + 4` (41_alu_register.md R116). `v` was computed from the current state (10_state.md R29). -/
def writeAndAdvance (s : State) (r : Reg) (v : Word) : Result := (s.setReg r v).advance

/-- A control transfer (45_jump.md R190, 44_branch.md R170): there is no delay slot. -/
def State.jumpTo (s : State) (target : Word) : Result := .next (s.setPc target)

/-- A diagnostic with no other effect than pc + 4. This is all that stands in the place of taking an exception: the CORE
has none, and saves nothing (60_exceptions.md R230, R234; 40_dispatch.md R94, R95). -/
def State.reportAndAdvance (s : State) (d : Diag) : Result := (s.report d).advance

/-- The diagnostic of an unrecognised word (R94). -/
def diagOfUnknown : Unknown → Diag
  | .op v => .unknownOp v
  | .funct v => .unknownFunct v
  | .regimm v => .unknownRegimm v

/-- An unrecognised word (R94). -/
def execUnknown (u : Unknown) (s : State) : Result := s.reportAndAdvance (diagOfUnknown u)

/-- An illegal operand combination (R95): the branch is not evaluated, nothing is written. -/
def execIllegal (m : Illegal) (s : State) : Result := s.reportAndAdvance (.illegalOperand m)

/-! ### Around an instruction: the fetch and the commit -/

/-- The seeded next state of R93 (`next <- cur`, `diag <- None`; 10_state.md R35): the ports are idle. -/
def State.beginStep (s : State) : State := { s with out := StepOutput.idle }

/-- The fetch, before dispatch (R91, 20_memory.md R52): the dispatch is given the instruction word and its start state. -/
def State.fetch (s : State) (dispatch : Word → State → Result) : Result := s.beginStep.memRead s.pc dispatch

/-- The commit (10_state.md R35), with the layer above the CORE where HARDWIRED_ZERO is true (R22). -/
def State.commit (s : State) : State := if s.cfg.hardwiredZero then s.setReg 0 0#32 else s

/-- The commit of what an instruction gave. -/
def commitResult : Result → Result
  | .next s => .next s.commit
  | .fault f => .fault f
  | .refused r => .refused r

/-- The memory and run flag a fetch of `w` needs: `w` written at the PC (70_reset_and_hazards.md R251 item 1), run flag
true (R251 item 3). -/
def State.loadAtPc (s : State) (w : Word) : State := { s.writeWord s.pc w with run := true }

end Sys2Proof.Machine
end

