-- ==== Sys2Proof/Machine/Operands.lean ====
section
/-! DEFINITION. Operand assembly (30_encoding.md R63 to R72) and the effective address (47_load_store.md R210). -/

namespace Sys2Proof.Machine

/-- `sext_16` (R63), and `sext_16h` for a loaded half (R65), as R67's defined arithmetic. -/
def sext16 (v : BitVec 16) : Word := v.signExtend 32

/-- `sext_8` (R64). -/
def sext8 (v : BitVec 8) : Word := v.signExtend 32

/-- `zext_16` (R66). -/
def zext16 (v : BitVec 16) : Word := v.zeroExtend 32

/-- `zext_8` (R66). -/
def zext8 (v : BitVec 8) : Word := v.zeroExtend 32

/-- The LUI constant (R71). -/
def luiConst (imm16 : BitVec 16) : Word := zext16 imm16 <<< 16

/-- The branch displacement (R69). -/
def branchDisp (imm16 : BitVec 16) : Word := sext16 imm16 <<< 2

/-- The target of a taken branch at the state's PC (44_branch.md R170). -/
def branchTarget (s : State) (imm16 : BitVec 16) : Word := s.nextPc + branchDisp imm16

/-- The target of J and JAL at the state's own PC (R70). -/
def jumpTarget (s : State) (target26 : BitVec 26) : Word :=
  (s.pc &&& 0xf0000000#32) ||| (target26.zeroExtend 32 <<< 2)

/-- The variable shift amount `x[rs] & 0x1f` (R72). -/
def varShamt (s : State) (rs : Reg) : Nat := (s.reg rs &&& 0x1f#32).toNat

/-- The effective address (R210): the base register is read and never changed. -/
def effAddr (s : State) (rs : Reg) (imm16 : BitVec 16) : Word := sext16 imm16 + s.reg rs

/-- The byte a byte load takes from the word read (47_load_store.md R211). -/
def lowByte (w : Word) : Byte := w.extractLsb' 0 8

/-- The half a half load takes from the word read (R213). -/
def lowHalf (w : Word) : BitVec 16 := w.extractLsb' 0 16

/-- The word SB writes back (R216). -/
def mergeByte (w v : Word) : Word := (w &&& 0xffffff00#32) ||| (v &&& 0x000000ff#32)

/-- The word SH writes back (R217). -/
def mergeHalf (w v : Word) : Word := (w &&& 0xffff0000#32) ||| (v &&& 0x0000ffff#32)

end Sys2Proof.Machine
end

