-- ==== Sys2Proof/Machine/Flags.lean ====
section
/-! DEFINITION. The CORE has no flags and no condition codes (10_state.md R25): comparisons deliver their result into a
general register or into the PC. These are the comparisons. -/

namespace Sys2Proof.Machine

/-- `signed(a) < signed(b)` (41_alu_register.md R114). -/
def ltSigned (a b : Word) : Bool := decide (a.toInt < b.toInt)

/-- `unsigned(a) < unsigned(b)` (R115). -/
def ltUnsigned (a b : Word) : Bool := decide (a.toNat < b.toNat)

/-- The result 1 or 0 of SLT and SLTU (R114, R115). -/
def boolWord (b : Bool) : Word := if b then 1#32 else 0#32

/-- `x[rs] = x[rt]` (44_branch.md R171). -/
def isEq (a b : Word) : Bool := a == b

/-- `signed(a) < 0` (R175). -/
def isNegative (a : Word) : Bool := decide (a.toInt < 0)

/-- `signed(a) ≥ 0` (R176). -/
def isNonNegative (a : Word) : Bool := decide (0 ≤ a.toInt)

/-- `signed(a) ≤ 0` (R173). -/
def isNonPositive (a : Word) : Bool := decide (a.toInt ≤ 0)

/-- `signed(a) > 0` (R174). -/
def isPositive (a : Word) : Bool := decide (0 < a.toInt)

end Sys2Proof.Machine
end

