-- ==== Sys2Proof/Machine/Alu.lean ====
section
/-! DEFINITION. The register-register ALU (41_alu_register.md R106 to R115). Arithmetic is modulo 2^32 and nothing traps
(R117). -/

namespace Sys2Proof.Machine

/-- R106: "no overflow trap is modeled". -/
def execAdd (rd rs rt : Reg) (s : State) : Result := writeAndAdvance s rd (s.reg rs + s.reg rt)

/-- R107. -/
def execAddu (rd rs rt : Reg) (s : State) : Result := writeAndAdvance s rd (s.reg rs + s.reg rt)

/-- R108: "same non-trapping policy". -/
def execSub (rd rs rt : Reg) (s : State) : Result := writeAndAdvance s rd (s.reg rs - s.reg rt)

/-- R109. -/
def execSubu (rd rs rt : Reg) (s : State) : Result := writeAndAdvance s rd (s.reg rs - s.reg rt)

/-- R110. -/
def execAnd (rd rs rt : Reg) (s : State) : Result := writeAndAdvance s rd (s.reg rs &&& s.reg rt)

/-- R111. -/
def execOr (rd rs rt : Reg) (s : State) : Result := writeAndAdvance s rd (s.reg rs ||| s.reg rt)

/-- R112. -/
def execXor (rd rs rt : Reg) (s : State) : Result := writeAndAdvance s rd (s.reg rs ^^^ s.reg rt)

/-- R113. -/
def execNor (rd rs rt : Reg) (s : State) : Result := writeAndAdvance s rd (~~~(s.reg rs ||| s.reg rt))

/-- R114. -/
def execSlt (rd rs rt : Reg) (s : State) : Result :=
  writeAndAdvance s rd (boolWord (ltSigned (s.reg rs) (s.reg rt)))

/-- R115. -/
def execSltu (rd rs rt : Reg) (s : State) : Result :=
  writeAndAdvance s rd (boolWord (ltUnsigned (s.reg rs) (s.reg rt)))

end Sys2Proof.Machine
end

