-- ==== Sys2Proof/Machine/Branch.lean ====
section
/-! DEFINITION. The conditional branches (44_branch.md). -/

namespace Sys2Proof.Machine

/-- `pc <- target if cond else pc + 4` (R170): no delay slot, no check of the target. -/
def branchIf (s : State) (cond : Bool) (imm16 : BitVec 16) : Result :=
  if cond then s.jumpTo (branchTarget s imm16) else s.advance

/-- The same with `x[31] <- pc + 4`, "whether or not the branch is taken" (R177). `cond` was computed on the current
state. -/
def linkAndBranchIf (s : State) (cond : Bool) (imm16 : BitVec 16) : Result :=
  branchIf (s.setReg linkReg s.nextPc) cond imm16

/-- R171. -/
def execBeq (rs rt : Reg) (imm16 : BitVec 16) (s : State) : Result :=
  branchIf s (isEq (s.reg rs) (s.reg rt)) imm16

/-- R172. -/
def execBne (rs rt : Reg) (imm16 : BitVec 16) (s : State) : Result :=
  branchIf s (!isEq (s.reg rs) (s.reg rt)) imm16

/-- R173: `rt` is the field value. -/
def execBlez (rs rt : Reg) (imm16 : BitVec 16) (s : State) : Result :=
  if rt ≠ 0 then execIllegal .blez s else branchIf s (isNonPositive (s.reg rs)) imm16

/-- R174. -/
def execBgtz (rs rt : Reg) (imm16 : BitVec 16) (s : State) : Result :=
  if rt ≠ 0 then execIllegal .bgtz s else branchIf s (isPositive (s.reg rs)) imm16

/-- R175. -/
def execBltz (rs : Reg) (imm16 : BitVec 16) (s : State) : Result := branchIf s (isNegative (s.reg rs)) imm16

/-- R176. -/
def execBgez (rs : Reg) (imm16 : BitVec 16) (s : State) : Result := branchIf s (isNonNegative (s.reg rs)) imm16

/-- R177. -/
def execBltzal (rs : Reg) (imm16 : BitVec 16) (s : State) : Result :=
  linkAndBranchIf s (isNegative (s.reg rs)) imm16

/-- R178. -/
def execBgezal (rs : Reg) (imm16 : BitVec 16) (s : State) : Result :=
  linkAndBranchIf s (isNonNegative (s.reg rs)) imm16

end Sys2Proof.Machine
end

