-- ==== Sys2Proof/Machine/Imm.lean ====
section
/-! DEFINITION. The immediate instructions (43_immediate.md). -/

namespace Sys2Proof.Machine

/-- R151: signed overflow wraps and does not trap (log 13). -/
def execAddi (rt rs : Reg) (imm16 : BitVec 16) (s : State) : Result := writeAndAdvance s rt (s.reg rs + sext16 imm16)

/-- R152: the immediate is sign-extended all the same. -/
def execAddiu (rt rs : Reg) (imm16 : BitVec 16) (s : State) : Result := writeAndAdvance s rt (s.reg rs + sext16 imm16)

/-- R153. -/
def execAndi (rt rs : Reg) (imm16 : BitVec 16) (s : State) : Result :=
  writeAndAdvance s rt (s.reg rs &&& zext16 imm16)

/-- R154. -/
def execOri (rt rs : Reg) (imm16 : BitVec 16) (s : State) : Result :=
  writeAndAdvance s rt (s.reg rs ||| zext16 imm16)

/-- R155. -/
def execXori (rt rs : Reg) (imm16 : BitVec 16) (s : State) : Result :=
  writeAndAdvance s rt (s.reg rs ^^^ zext16 imm16)

/-- R156: `rs` is the field value; LUI reads no register. -/
def execLui (rt rs : Reg) (imm16 : BitVec 16) (s : State) : Result :=
  if rs ≠ 0 then execIllegal .lui s else writeAndAdvance s rt (luiConst imm16)

end Sys2Proof.Machine
end

