-- ==== Sys2Proof/Machine/Jump.lean ====
section
/-! DEFINITION. The jumps, calls and returns (45_jump.md). -/

namespace Sys2Proof.Machine

/-- R191: the region is that of the J instruction itself. -/
def execJ (target26 : BitVec 26) (s : State) : Result := s.jumpTo (jumpTarget s target26)

/-- R192. -/
def execJal (target26 : BitVec 26) (s : State) : Result :=
  (s.setReg linkReg s.nextPc).jumpTo (jumpTarget s target26)

/-- R193: any 32-bit value is a target. -/
def execJr (rs : Reg) (s : State) : Result := s.jumpTo (s.reg rs)

/-- R194: the target is the current x[rs], also where rd = rs. -/
def execJalr (rd rs : Reg) (s : State) : Result := (s.setReg rd s.nextPc).jumpTo (s.reg rs)

end Sys2Proof.Machine
end

