-- ==== Sys2Proof/Machine/LoadStore.lean ====
section
/-! DEFINITION. The loads and stores (47_load_store.md), each through 32-bit calls on the memory port (R16). -/

namespace Sys2Proof.Machine

/-- One read at the effective address; `pick` of the word read goes to x[rt] (R211 to R215). -/
def loadWith (pick : Word → Word) (rt rs : Reg) (imm16 : BitVec 16) (s : State) : Result :=
  s.memRead (effAddr s rs imm16) fun w t => writeAndAdvance t rt (pick w)

/-- Read, merge with x[rt], write back at the same unmasked address (R216, R217; C3). -/
def storeMerged (merge : Word → Word → Word) (rt rs : Reg) (imm16 : BitVec 16) (s : State) : Result :=
  s.memRead (effAddr s rs imm16) fun w t =>
    t.memWrite (effAddr s rs imm16) (merge w (s.reg rt)) State.advance

/-- R211. -/
def execLb (rt rs : Reg) (imm16 : BitVec 16) (s : State) : Result := loadWith (fun w => sext8 (lowByte w)) rt rs imm16 s

/-- R212. -/
def execLbu (rt rs : Reg) (imm16 : BitVec 16) (s : State) : Result := loadWith (fun w => zext8 (lowByte w)) rt rs imm16 s

/-- R213. -/
def execLh (rt rs : Reg) (imm16 : BitVec 16) (s : State) : Result := loadWith (fun w => sext16 (lowHalf w)) rt rs imm16 s

/-- R214. -/
def execLhu (rt rs : Reg) (imm16 : BitVec 16) (s : State) : Result := loadWith (fun w => zext16 (lowHalf w)) rt rs imm16 s

/-- R215. -/
def execLw (rt rs : Reg) (imm16 : BitVec 16) (s : State) : Result := loadWith (fun w => w) rt rs imm16 s

/-- R216. -/
def execSb (rt rs : Reg) (imm16 : BitVec 16) (s : State) : Result := storeMerged mergeByte rt rs imm16 s

/-- R217. -/
def execSh (rt rs : Reg) (imm16 : BitVec 16) (s : State) : Result := storeMerged mergeHalf rt rs imm16 s

/-- R218: one write, no read. -/
def execSw (rt rs : Reg) (imm16 : BitVec 16) (s : State) : Result :=
  s.memWrite (effAddr s rs imm16) (s.reg rt) State.advance

end Sys2Proof.Machine
end

