-- ==== Sys2Proof/Machine/MulDiv.lean ====
section
/-! DEFINITION. The multiplier, the divider and the HI/LO moves (42_muldiv_hilo.md). Results are exact integers, narrowed
at the end. -/

namespace Sys2Proof.Machine

/-- `HI <- hi; LO <- lo; pc <- pc + 4` (R130). -/
def writeHiLoAndAdvance (s : State) (hi lo : Word) : Result := ((s.setHi hi).setLo lo).advance

/-- The 64-bit pattern of a product, its high half to HI and its low half to LO (R131). -/
def writeProduct (s : State) (p : BitVec 64) : Result :=
  writeHiLoAndAdvance s (p.extractLsb' 32 32) (p.extractLsb' 0 32)

/-- A zero divisor (R133, R134): the diagnostic, and HI and LO by the policy `DIV0` (log 6); PC still advances. -/
def divideByZero (s : State) (kind : DivKind) (dividend : Word) : Result :=
  match s.cfg.div0 with
  | .unchanged => (s.report (.divideByZero kind)).advance
  | .anyValue =>
    let v := Config.div0Result kind s.hi s.lo dividend
    writeHiLoAndAdvance (s.report (.divideByZero kind)) v.1 v.2

/-- R131. -/
def execMult (rs rt : Reg) (s : State) : Result :=
  writeProduct s (BitVec.ofInt 64 ((s.reg rs).toInt * (s.reg rt).toInt))

/-- R132. -/
def execMultu (rs rt : Reg) (s : State) : Result :=
  writeProduct s (BitVec.ofNat 64 ((s.reg rs).toNat * (s.reg rt).toNat))

/-- Quotient and remainder of R133 for a divisor that is not 0. The overflow case -2^31 / -1 is R133's own (log 7). -/
def divSigned (a b : Word) : Word × Word :=
  if a.toInt = -2 ^ 31 ∧ b.toInt = -1 then (0x80000000#32, 0x00000000#32)
  else
    let q := a.toInt.tdiv b.toInt
    let r := a.toInt - q * b.toInt
    (BitVec.ofInt 32 q, BitVec.ofInt 32 r)

/-- R133. -/
def execDiv (rs rt : Reg) (s : State) : Result :=
  let a := s.reg rs
  let b := s.reg rt
  if b.toInt = 0 then divideByZero s .div a
  else writeHiLoAndAdvance s (divSigned a b).2 (divSigned a b).1

/-- R134. -/
def execDivu (rs rt : Reg) (s : State) : Result :=
  let a := s.reg rs
  let b := s.reg rt
  if b.toNat = 0 then divideByZero s .divu a
  else writeHiLoAndAdvance s (BitVec.ofNat 32 (a.toNat % b.toNat)) (BitVec.ofNat 32 (a.toNat / b.toNat))

/-- R135. -/
def execMfhi (rd : Reg) (s : State) : Result := writeAndAdvance s rd s.hi

/-- R136. -/
def execMthi (rs : Reg) (s : State) : Result := (s.setHi (s.reg rs)).advance

/-- R137. -/
def execMflo (rd : Reg) (s : State) : Result := writeAndAdvance s rd s.lo

/-- R138. -/
def execMtlo (rs : Reg) (s : State) : Result := (s.setLo (s.reg rs)).advance

end Sys2Proof.Machine
end

