-- ==== Sys2Proof/Machine/Shift.lean ====
section
/-! DEFINITION. The shifter (41_alu_register.md R100 to R105). -/

namespace Sys2Proof.Machine

/-- R100. -/
def execSll (rd rt : Reg) (shamt : Shamt) (s : State) : Result := writeAndAdvance s rd (s.reg rt <<< shamt.val)

/-- R101. -/
def execSrl (rd rt : Reg) (shamt : Shamt) (s : State) : Result := writeAndAdvance s rd (s.reg rt >>> shamt.val)

/-- R102. -/
def execSra (rd rt : Reg) (shamt : Shamt) (s : State) : Result :=
  writeAndAdvance s rd ((s.reg rt).sshiftRight shamt.val)

/-- R103. -/
def execSllv (rd rt rs : Reg) (s : State) : Result := writeAndAdvance s rd (s.reg rt <<< varShamt s rs)

/-- R104. -/
def execSrlv (rd rt rs : Reg) (s : State) : Result := writeAndAdvance s rd (s.reg rt >>> varShamt s rs)

/-- R105. -/
def execSrav (rd rt rs : Reg) (s : State) : Result := writeAndAdvance s rd ((s.reg rt).sshiftRight (varShamt s rs))

end Sys2Proof.Machine
end

