-- ==== Sys2Proof/Machine/Syscall.lean ====
section
/-! DEFINITION. The system call (46_syscall.md). -/

namespace Sys2Proof.Machine

/-- The service number "exit" (R23). -/
def exitService : Word := 0x0000000a#32

/-- R200: exit clears the run flag and leaves the PC; any other service number only advances the PC (R202). -/
def execSyscall (s : State) : Result :=
  if s.reg serviceReg = exitService then .next s.clearRun else s.advance

end Sys2Proof.Machine
end

