-- ==== Sys2Proof/Machine/Dispatch.lean ====
section
/-! DEFINITION. The execution dispatcher's arms (40_dispatch.md R93): one instruction, one meaning (R96). -/

namespace Sys2Proof.Machine

def exec (i : Instr) (s : State) : Host.Outcome State Fault Refusal :=
  match i with
  | .sll rd rt shamt => Sys2Proof.Machine.execSll rd rt shamt s
  | .srl rd rt shamt => Sys2Proof.Machine.execSrl rd rt shamt s
  | .sra rd rt shamt => Sys2Proof.Machine.execSra rd rt shamt s
  | .sllv rd rt rs => Sys2Proof.Machine.execSllv rd rt rs s
  | .srlv rd rt rs => Sys2Proof.Machine.execSrlv rd rt rs s
  | .srav rd rt rs => Sys2Proof.Machine.execSrav rd rt rs s
  | .jr rs => Sys2Proof.Machine.execJr rs s
  | .jalr rd rs => Sys2Proof.Machine.execJalr rd rs s
  | .mfhi rd => Sys2Proof.Machine.execMfhi rd s
  | .mthi rs => Sys2Proof.Machine.execMthi rs s
  | .mflo rd => Sys2Proof.Machine.execMflo rd s
  | .mtlo rs => Sys2Proof.Machine.execMtlo rs s
  | .mult rs rt => Sys2Proof.Machine.execMult rs rt s
  | .multu rs rt => Sys2Proof.Machine.execMultu rs rt s
  | .div rs rt => Sys2Proof.Machine.execDiv rs rt s
  | .divu rs rt => Sys2Proof.Machine.execDivu rs rt s
  | .add rd rs rt => Sys2Proof.Machine.execAdd rd rs rt s
  | .addu rd rs rt => Sys2Proof.Machine.execAddu rd rs rt s
  | .sub rd rs rt => Sys2Proof.Machine.execSub rd rs rt s
  | .subu rd rs rt => Sys2Proof.Machine.execSubu rd rs rt s
  | .and rd rs rt => Sys2Proof.Machine.execAnd rd rs rt s
  | .or rd rs rt => Sys2Proof.Machine.execOr rd rs rt s
  | .xor rd rs rt => Sys2Proof.Machine.execXor rd rs rt s
  | .nor rd rs rt => Sys2Proof.Machine.execNor rd rs rt s
  | .slt rd rs rt => Sys2Proof.Machine.execSlt rd rs rt s
  | .sltu rd rs rt => Sys2Proof.Machine.execSltu rd rs rt s
  | .syscall => Sys2Proof.Machine.execSyscall s
  | .addi rt rs imm16 => Sys2Proof.Machine.execAddi rt rs imm16 s
  | .addiu rt rs imm16 => Sys2Proof.Machine.execAddiu rt rs imm16 s
  | .andi rt rs imm16 => Sys2Proof.Machine.execAndi rt rs imm16 s
  | .ori rt rs imm16 => Sys2Proof.Machine.execOri rt rs imm16 s
  | .xori rt rs imm16 => Sys2Proof.Machine.execXori rt rs imm16 s
  | .lui rt rs imm16 => Sys2Proof.Machine.execLui rt rs imm16 s
  | .beq rs rt imm16 => Sys2Proof.Machine.execBeq rs rt imm16 s
  | .bne rs rt imm16 => Sys2Proof.Machine.execBne rs rt imm16 s
  | .blez rs rt imm16 => Sys2Proof.Machine.execBlez rs rt imm16 s
  | .bgtz rs rt imm16 => Sys2Proof.Machine.execBgtz rs rt imm16 s
  | .bltz rs imm16 => Sys2Proof.Machine.execBltz rs imm16 s
  | .bgez rs imm16 => Sys2Proof.Machine.execBgez rs imm16 s
  | .bltzal rs imm16 => Sys2Proof.Machine.execBltzal rs imm16 s
  | .bgezal rs imm16 => Sys2Proof.Machine.execBgezal rs imm16 s
  | .j target26 => Sys2Proof.Machine.execJ target26 s
  | .jal target26 => Sys2Proof.Machine.execJal target26 s
  | .lb rt rs imm16 => Sys2Proof.Machine.execLb rt rs imm16 s
  | .lh rt rs imm16 => Sys2Proof.Machine.execLh rt rs imm16 s
  | .lw rt rs imm16 => Sys2Proof.Machine.execLw rt rs imm16 s
  | .lbu rt rs imm16 => Sys2Proof.Machine.execLbu rt rs imm16 s
  | .lhu rt rs imm16 => Sys2Proof.Machine.execLhu rt rs imm16 s
  | .sb rt rs imm16 => Sys2Proof.Machine.execSb rt rs imm16 s
  | .sh rt rs imm16 => Sys2Proof.Machine.execSh rt rs imm16 s
  | .sw rt rs imm16 => Sys2Proof.Machine.execSw rt rs imm16 s

end Sys2Proof.Machine
end

