-- ==== Sys2Proof/Machine/Step.lean ====
section
/-! DEFINITION. One step (40_dispatch.md R90, R93) and the placing of an instruction where the step fetches it. -/

namespace Sys2Proof.Machine

/-- The dispatch on a decoded word (R93): an instruction runs its arm, an unrecognised or illegal word takes the path of
R94 or R95. -/
def execDecoded (d : Decoded) (s : State) : Host.Outcome State Fault Refusal :=
  match d with
  | .instr i => exec i s
  | .unknown u => execUnknown u s
  | .illegal m => execIllegal m s

/-- One step: fetch at the PC, decode, execute, commit. Its precondition is that the run flag is true (R97, log 8). -/
def step (s : State) : Host.Outcome State Fault Refusal :=
  if s.run then commitResult (s.fetch fun w t => execDecoded (decodeWord w) t) else .refused .runFlagClear

/-- The state in which the next step fetches and runs the instruction word whose bits, as opcode_table.json numbers them,
are the low `nbits` bits of `w`: the loader has put it at the PC and the front end has set the run flag (70_reset_and_hazards.md R251, log 14). -/
def State.withFetchWord (s : State) (nbits w : Nat) : State := s.loadAtPc (tableWord nbits w)

end Sys2Proof.Machine
end

