-- ==== Sys2Proof/Safety.lean ====
section
/-! DEFINITION. The terms claims about the machine are stated in: what a result keeps and what it writes, the invariant of
a run, and what the rules say of all instructions at once (10_state.md R30, 20_memory.md R41, 40_dispatch.md R92,
60_exceptions.md R231). -/

namespace Sys2Proof.Machine

/-! ### What is kept -/

/-- Every general register reads as before. -/
def KeepsRegs (s t : State) : Prop := ∀ r : Reg, t.reg r = s.reg r

/-- Every general register but `rd` reads as before. -/
def KeepsOtherRegs (rd : Reg) (s t : State) : Prop := ∀ r : Reg, r ≠ rd → t.reg r = s.reg r

def KeepsHiLo (s t : State) : Prop := t.hi = s.hi ∧ t.lo = s.lo

/-- The byte at an address: the low byte of the word the memory port answers there (20_memory.md R43, M1). -/
def State.byteAt (s : State) (a : Word) : Byte := (s.readWord a).extractLsb' 0 8

/-- Memory is as before: every byte reads as before, and the collaborator's contents are what they were, so that every
word does too. -/
def KeepsMemory (s t : State) : Prop :=
  (∀ a : Word, t.byteAt a = s.byteAt a) ∧ t.mem = s.mem ∧ t.writes = s.writes

/-- Every byte of memory outside the `n` bytes from `a` upward (addresses modulo 2^32) reads as before. -/
def KeepsBytesOutside (a : Word) (n : Nat) (s t : State) : Prop :=
  ∀ b : Word, (∀ k, k < n → b ≠ a + BitVec.ofNat 32 k) → t.byteAt b = s.byteAt b

/-- The run flag and the parameters are as before. -/
def KeepsRunAndConfig (s t : State) : Prop := t.run = s.run ∧ t.cfg = s.cfg

/-- Run flag, parameters and output ports are as before: no run_clear, no diagnostic, no call on the memory port. -/
def KeepsPorts (s t : State) : Prop := KeepsRunAndConfig s t ∧ t.out = s.out

/-! ### What a completed instruction does: each says that a next state is answered, and all of what it is -/

/-- `x[rd] <- v; pc <- target` and nothing else. -/
def WritesRegAndGoes (o : Result) (s : State) (rd : Reg) (v target : Word) : Prop :=
  ∃ t, o = .next t ∧ t.pc = target ∧ t.reg rd = v ∧ KeepsOtherRegs rd s t ∧ KeepsHiLo s t ∧ KeepsMemory s t ∧
    KeepsPorts s t

/-- `x[rd] <- v; pc <- pc + 4` and nothing else. -/
def WritesReg (o : Result) (s : State) (rd : Reg) (v : Word) : Prop := WritesRegAndGoes o s rd v (s.pc + 4#32)

/-- `pc <- target` and nothing else. -/
def GoesTo (o : Result) (s : State) (target : Word) : Prop :=
  ∃ t, o = .next t ∧ t.pc = target ∧ KeepsRegs s t ∧ KeepsHiLo s t ∧ KeepsMemory s t ∧ KeepsPorts s t

/-- `HI <- hi; LO <- lo; pc <- pc + 4` and nothing else. -/
def WritesHiLo (o : Result) (s : State) (hi lo : Word) : Prop :=
  ∃ t, o = .next t ∧ t.pc = s.pc + 4#32 ∧ t.hi = hi ∧ t.lo = lo ∧ KeepsRegs s t ∧ KeepsMemory s t ∧ KeepsPorts s t

/-- `report d; HI <- hi; LO <- lo; pc <- pc + 4` and nothing else. -/
def ReportsWithHiLo (o : Result) (s : State) (d : Diag) (hi lo : Word) : Prop :=
  ∃ t, o = .next t ∧ t.pc = s.pc + 4#32 ∧ t.hi = hi ∧ t.lo = lo ∧ KeepsRegs s t ∧ KeepsMemory s t ∧
    KeepsRunAndConfig s t ∧ t.out = { s.out with diag := d }

/-- `report d; pc <- pc + 4` and nothing else (40_dispatch.md R94, R95). -/
def ReportsOnly (o : Result) (s : State) (d : Diag) : Prop := ReportsWithHiLo o s d s.hi s.lo

/-- One read of the word at `a`, `x[rt] <- v; pc <- pc + 4` and nothing else. -/
def Loads (o : Result) (s : State) (rt : Reg) (v a : Word) : Prop :=
  ∃ t, o = .next t ∧ t.pc = s.pc + 4#32 ∧ t.reg rt = v ∧ KeepsOtherRegs rt s t ∧ KeepsHiLo s t ∧ KeepsMemory s t ∧
    KeepsRunAndConfig s t ∧ t.out = { s.out with calls := s.out.calls ++ [.read a] }

/-- `write_word(a, v)`, `pc <- pc + 4` and nothing else, under any collaborator; the calls on the memory port are
`calls`. -/
def WritesWord (o : Result) (s : State) (a v : Word) (calls : List MemCall) : Prop :=
  ∃ t, o = .next t ∧ t.pc = s.pc + 4#32 ∧ KeepsMemory (s.writeWord a v) t ∧
    KeepsRegs s t ∧ KeepsHiLo s t ∧ KeepsRunAndConfig s t ∧ t.out = { s.out with calls := s.out.calls ++ calls }

/-- The `n` bytes from `a` upward take the low `n` bytes of `v`, `pc <- pc + 4` and nothing else; the calls on the memory
port are `calls`. -/
def Stores (o : Result) (s : State) (a : Word) (n : Nat) (v : Word) (calls : List MemCall) : Prop :=
  ∃ t, o = .next t ∧ t.pc = s.pc + 4#32 ∧
    (∀ k, k < n → t.byteAt (a + BitVec.ofNat 32 k) = v.extractLsb' (8 * k) 8) ∧ KeepsBytesOutside a n s t ∧
    KeepsRegs s t ∧ KeepsHiLo s t ∧ KeepsRunAndConfig s t ∧ t.out = { s.out with calls := s.out.calls ++ calls }

/-! ### The contract of the parameter MEM -/

/-- What the CORE relies on in a memory collaborator (20_memory.md R40, R43): in any contents it faults on no call, and
it meets M1 to M3. "A model that takes an arbitrary MEM must take M1 to M3 as hypotheses": this is that hypothesis. That
the half at `a` is the bytes at `a` and `a + 1` is DEDUCED from M1 with R46 (log 15). -/
structure MeetsContract (c : Config) : Prop where
  total : ∀ (s : State) (call : MemCall), s.cfg = c → s.memFaults call = false
  /-- M1. The byte at `a` is bits [7:0] by `State.byteAt`; the half is bits [15:0]. -/
  m1 : ∀ (s : State) (a : Word), s.cfg = c → (s.readWord a).extractLsb' 0 16 = s.byteAt (a + 1#32) ++ s.byteAt a
  /-- M2 for a byte: a write that keeps the bits above bit 7. -/
  m2Byte : ∀ (s : State) (a v : Word), s.cfg = c → v.extractLsb' 8 24 = (s.readWord a).extractLsb' 8 24 →
    ∀ b : Word, (s.writeWord a v).byteAt b = if b = a then v.extractLsb' 0 8 else s.byteAt b
  /-- M2 for a half: a write that keeps the bits above bit 15. -/
  m2Half : ∀ (s : State) (a v : Word), s.cfg = c → v.extractLsb' 16 16 = (s.readWord a).extractLsb' 16 16 →
    ∀ b : Word, (s.writeWord a v).byteAt b =
      if b = a then v.extractLsb' 0 8 else if b = a + 1#32 then v.extractLsb' 8 8 else s.byteAt b
  /-- M3. -/
  m3 : ∀ (s : State) (a v : Word), s.cfg = c → (s.writeWord a v).readWord a = v

/-! ### Which words are an instruction -/

/-- The words of op 0x00 with this funct are `mk` of the word (30_encoding.md R75), whatever their other bits. -/
def DecodesFunct (funct : BitVec 6) (mk : Word → Instr) : Prop :=
  ∀ w : Word, opOf w = 0x00#6 → functOf w = funct → decodeWord w = .instr (mk w)

/-- The words of this op are `mk` of the word (R74). -/
def DecodesOp (op : BitVec 6) (mk : Word → Instr) : Prop := ∀ w : Word, opOf w = op → decodeWord w = .instr (mk w)

/-- The words of op 0x01 with this rt field are `mk` of the word (R76). -/
def DecodesRegimm (rt : BitVec 5) (mk : Word → Instr) : Prop :=
  ∀ w : Word, opOf w = 0x01#6 → rtBits w = rt → decodeWord w = .instr (mk w)

/-- The words of this op are `mk` of the word where the 5-bit field `field` is 0, and the illegal form `m` where it is not
(R78). -/
def DecodesOpWithZero (op : BitVec 6) (field : Word → BitVec 5) (m : Illegal) (mk : Word → Instr) : Prop :=
  ∀ w : Word, opOf w = op → decodeWord w = if field w = 0#5 then .instr (mk w) else .illegal m

/-! ### What the rules say of all instructions at once -/

/-- The general register an instruction writes (the table of 10_state.md R30); none for an ill-formed LUI (R95). -/
def regWritten : Instr → Option Reg
  | .sll rd _ _ | .srl rd _ _ | .sra rd _ _ | .sllv rd _ _ | .srlv rd _ _ | .srav rd _ _ => some rd
  | .add rd _ _ | .addu rd _ _ | .sub rd _ _ | .subu rd _ _ | .and rd _ _ | .or rd _ _ | .xor rd _ _ => some rd
  | .nor rd _ _ | .slt rd _ _ | .sltu rd _ _ | .mfhi rd | .mflo rd | .jalr rd _ => some rd
  | .addi rt _ _ | .addiu rt _ _ | .andi rt _ _ | .ori rt _ _ | .xori rt _ _ => some rt
  | .lui rt rs _ => if rs = 0 then some rt else none
  | .lb rt _ _ | .lbu rt _ _ | .lh rt _ _ | .lhu rt _ _ | .lw rt _ _ => some rt
  | .jal _ | .bltzal _ _ | .bgezal _ _ => some 31
  | .mult .. | .multu .. | .div .. | .divu .. | .mthi .. | .mtlo .. => none
  | .j .. | .jr .. | .beq .. | .bne .. | .blez .. | .bgtz .. | .bltz .. | .bgez .. | .syscall => none
  | .sb .. | .sh .. | .sw .. => none

/-- Whether an instruction may write HI (R30). -/
def mayWriteHi : Instr → Bool
  | .mult .. | .multu .. | .div .. | .divu .. | .mthi .. => true
  | .mtlo .. | .mfhi .. | .mflo .. => false
  | .sll .. | .srl .. | .sra .. | .sllv .. | .srlv .. | .srav .. => false
  | .add .. | .addu .. | .sub .. | .subu .. | .and .. | .or .. | .xor .. | .nor .. | .slt .. | .sltu .. => false
  | .addi .. | .addiu .. | .andi .. | .ori .. | .xori .. | .lui .. => false
  | .beq .. | .bne .. | .blez .. | .bgtz .. | .bltz .. | .bgez .. | .bltzal .. | .bgezal .. => false
  | .j .. | .jal .. | .jr .. | .jalr .. | .syscall => false
  | .lb .. | .lh .. | .lw .. | .lbu .. | .lhu .. | .sb .. | .sh .. | .sw .. => false

/-- Whether an instruction may write LO (R30). -/
def mayWriteLo : Instr → Bool
  | .mult .. | .multu .. | .div .. | .divu .. | .mtlo .. => true
  | .mthi .. | .mfhi .. | .mflo .. => false
  | .sll .. | .srl .. | .sra .. | .sllv .. | .srlv .. | .srav .. => false
  | .add .. | .addu .. | .sub .. | .subu .. | .and .. | .or .. | .xor .. | .nor .. | .slt .. | .sltu .. => false
  | .addi .. | .addiu .. | .andi .. | .ori .. | .xori .. | .lui .. => false
  | .beq .. | .bne .. | .blez .. | .bgtz .. | .bltz .. | .bgez .. | .bltzal .. | .bgezal .. => false
  | .j .. | .jal .. | .jr .. | .jalr .. | .syscall => false
  | .lb .. | .lh .. | .lw .. | .lbu .. | .lhu .. | .sb .. | .sh .. | .sw .. => false

/-- The address and the number of bytes an instruction stores (47_load_store.md R216 to R218); none for the others. -/
def bytesStored (i : Instr) (s : State) : Option (Word × Nat) :=
  match i with
  | .sb _ rs imm16 => some (effAddr s rs imm16, 1)
  | .sh _ rs imm16 => some (effAddr s rs imm16, 2)
  | .sw _ rs imm16 => some (effAddr s rs imm16, 4)
  | .lb .. | .lh .. | .lw .. | .lbu .. | .lhu .. => none
  | .mult .. | .multu .. | .div .. | .divu .. | .mthi .. | .mtlo .. | .mfhi .. | .mflo .. => none
  | .sll .. | .srl .. | .sra .. | .sllv .. | .srlv .. | .srav .. => none
  | .add .. | .addu .. | .sub .. | .subu .. | .and .. | .or .. | .xor .. | .nor .. | .slt .. | .sltu .. => none
  | .addi .. | .addiu .. | .andi .. | .ori .. | .xori .. | .lui .. => none
  | .beq .. | .bne .. | .blez .. | .bgtz .. | .bltz .. | .bgez .. | .bltzal .. | .bgezal .. => none
  | .j .. | .jal .. | .jr .. | .jalr .. | .syscall => none

/-- The data calls of an instruction on the memory port, in order (20_memory.md R41, R42). -/
def dataCalls (i : Instr) (s : State) : List MemCall :=
  match i with
  | .lb _ rs imm16 | .lbu _ rs imm16 | .lh _ rs imm16 | .lhu _ rs imm16 | .lw _ rs imm16 =>
    [.read (effAddr s rs imm16)]
  | .sb rt rs imm16 =>
    let a := effAddr s rs imm16
    [.read a, .write a ((s.readWord a &&& 0xffffff00#32) ||| (s.reg rt &&& 0x000000ff#32))]
  | .sh rt rs imm16 =>
    let a := effAddr s rs imm16
    [.read a, .write a ((s.readWord a &&& 0xffff0000#32) ||| (s.reg rt &&& 0x0000ffff#32))]
  | .sw rt rs imm16 => [.write (effAddr s rs imm16) (s.reg rt)]
  | .mult .. | .multu .. | .div .. | .divu .. | .mthi .. | .mtlo .. | .mfhi .. | .mflo .. => []
  | .sll .. | .srl .. | .sra .. | .sllv .. | .srlv .. | .srav .. => []
  | .add .. | .addu .. | .sub .. | .subu .. | .and .. | .or .. | .xor .. | .nor .. | .slt .. | .sltu .. => []
  | .addi .. | .addiu .. | .andi .. | .ori .. | .xori .. | .lui .. => []
  | .beq .. | .bne .. | .blez .. | .bgtz .. | .bltz .. | .bgez .. | .bltzal .. | .bgezal .. => []
  | .j .. | .jal .. | .jr .. | .jalr .. | .syscall => []

/-- The data calls of a decoded word: none for an unrecognised or illegal one (R41). -/
def dataCallsOf (d : Decoded) (s : State) : List MemCall :=
  match d with
  | .instr i => dataCalls i s
  | .unknown _ => []
  | .illegal _ => []

/-- The write a call makes. -/
def writeOf : MemCall → Option (Word × Word)
  | .read _ => none
  | .write a v => some (a, v)

/-- Whether an instruction may override the default PC rule (40_dispatch.md R92): JR, JALR, J, JAL, branches, SYSCALL. -/
def mayOverridePc : Instr → Bool
  | .jr .. | .jalr .. | .j .. | .jal .. | .syscall => true
  | .beq .. | .bne .. | .blez .. | .bgtz .. | .bltz .. | .bgez .. | .bltzal .. | .bgezal .. => true
  | .mult .. | .multu .. | .div .. | .divu .. | .mthi .. | .mtlo .. | .mfhi .. | .mflo .. => false
  | .sll .. | .srl .. | .sra .. | .sllv .. | .srlv .. | .srav .. => false
  | .add .. | .addu .. | .sub .. | .subu .. | .and .. | .or .. | .xor .. | .nor .. | .slt .. | .sltu .. => false
  | .addi .. | .addiu .. | .andi .. | .ori .. | .xori .. | .lui .. => false
  | .lb .. | .lh .. | .lw .. | .lbu .. | .lhu .. | .sb .. | .sh .. | .sw .. => false

/-- The one diagnostic of a step, in the order of checks of 60_exceptions.md R233, from the word it fetched. -/
def stepDiag (w : Word) (s : State) : Diag :=
  match decodeWord w with
  | .unknown (.op v) => .unknownOp v
  | .unknown (.funct v) => .unknownFunct v
  | .unknown (.regimm v) => .unknownRegimm v
  | .illegal m => .illegalOperand m
  | .instr (.div _ rt) => if s.reg rt = 0#32 then .divideByZero .div else .none
  | .instr (.divu _ rt) => if s.reg rt = 0#32 then .divideByZero .divu else .none
  | .instr _ => .none

/-- The word a step at this state fetches (20_memory.md R52). -/
def fetchedWord (s : State) : Word := s.readWord s.pc

/-- The state a step's dispatch starts from: the current state, the fetch the only thing on the output ports. -/
def afterFetch (s : State) : State :=
  { s with out := { runClear := false, diag := .none, calls := [.read s.pc] } }

/-! ### The invariant of a run -/

/-- What every step keeps: the memory's canonical form, the zero register where the layer above the CORE holds it at 0
(R22), run_clear asserted exactly by the step that cleared the run flag (R28, R32), and the contents of the reference
memory in `mem` alone. -/
structure State.Inv (s : State) : Prop where
  memWf : s.mem.wf
  zeroHeld : s.cfg.hardwiredZero = true → s.reg 0 = 0#32
  runClearIff : s.out.runClear = !s.run
  contentsInMem : s.cfg.mem = .reference → s.writes = []

end Sys2Proof.Machine
end

