-- ==== Sys2Proof/Certificates/Slice0/Obligations.lean ====
section
/-! DEFINITION. The statements for the provers. A result is written as an integer or bit-slice formula of the rule, not
in the model's own operators; the predicates of Sys2Proof/Safety.lean say that a next state is answered and all of what
it is. -/

open Sys2Proof Sys2Proof.Machine

/-! ### The decoder and the encoder -/

/-- R61: the eight fields are the named bits of the word, and the word is its fields in each of the three layouts. -/
def Obligations.FieldsAreTheNamedBits : Prop :=
  ∀ w : Word,
    (∀ i, i < 6 → (fieldsOf w).op.getLsbD i = w.getLsbD (26 + i)) ∧
    (∀ i, i < 5 → (fieldOfIndex (fieldsOf w).rs).getLsbD i = w.getLsbD (21 + i)) ∧
    (∀ i, i < 5 → (fieldOfIndex (fieldsOf w).rt).getLsbD i = w.getLsbD (16 + i)) ∧
    (∀ i, i < 5 → (fieldOfIndex (fieldsOf w).rd).getLsbD i = w.getLsbD (11 + i)) ∧
    (∀ i, i < 5 → (fieldOfIndex (fieldsOf w).shamt).getLsbD i = w.getLsbD (6 + i)) ∧
    (∀ i, i < 6 → (fieldsOf w).funct.getLsbD i = w.getLsbD i) ∧
    (∀ i, i < 16 → (fieldsOf w).imm16.getLsbD i = w.getLsbD i) ∧
    (∀ i, i < 26 → (fieldsOf w).target26.getLsbD i = w.getLsbD i) ∧
    w = (fieldsOf w).op ++ fieldOfIndex (fieldsOf w).rs ++ fieldOfIndex (fieldsOf w).rt ++
      fieldOfIndex (fieldsOf w).rd ++ fieldOfIndex (fieldsOf w).shamt ++ (fieldsOf w).funct ∧
    w = (fieldsOf w).op ++ fieldOfIndex (fieldsOf w).rs ++ fieldOfIndex (fieldsOf w).rt ++ (fieldsOf w).imm16 ∧
    w = (fieldsOf w).op ++ (fieldsOf w).target26

/-- R63 to R66, bit by bit and as integers. The loaded half of R65 uses the function of R63. -/
def Obligations.ExtensionsReplicateSignOrZero : Prop :=
  (∀ v : BitVec 16, sext16 v = (if v.getLsbD 15 then 0xffff#16 else 0x0000#16) ++ v ∧ (sext16 v).toInt = v.toInt) ∧
  (∀ v : BitVec 8, sext8 v = (if v.getLsbD 7 then 0xffffff#24 else 0x000000#24) ++ v ∧ (sext8 v).toInt = v.toInt) ∧
  (∀ v : BitVec 16, zext16 v = 0x0000#16 ++ v ∧ (zext16 v).toNat = v.toNat) ∧
  (∀ v : BitVec 8, zext8 v = 0x000000#24 ++ v ∧ (zext8 v).toNat = v.toNat)

/-- R69 to R71: the branch displacement as a signed value and its range, the branch target, the jump target and the LUI
constant, bit slice by bit slice. -/
def Obligations.TargetsAndUpperConstant : Prop :=
  (∀ imm16 : BitVec 16, (branchDisp imm16).toInt = 4 * imm16.toInt ∧
    -131072 ≤ (branchDisp imm16).toInt ∧ (branchDisp imm16).toInt ≤ 131068) ∧
  (∀ (s : State) (imm16 : BitVec 16), branchTarget s imm16 = s.pc + 4#32 + branchDisp imm16) ∧
  (∀ (s : State) (target26 : BitVec 26),
    (jumpTarget s target26).extractLsb' 28 4 = s.pc.extractLsb' 28 4 ∧
    (jumpTarget s target26).extractLsb' 2 26 = target26 ∧ (jumpTarget s target26).extractLsb' 0 2 = 0#2) ∧
  (∀ imm16 : BitVec 16, luiConst imm16 = imm16 ++ 0x0000#16)

/-- A word of each family, written out bit by bit from the layouts of R61 and the numbers of R74 to R76 (op numbers from
0x08 upward: GK1, log 11). A sanity statement. -/
def Obligations.WrittenOutWordsDecode : Prop :=
  decodeWord 0b00000000000000100001100100000000#32 = .instr (.sll 3 2 4) ∧
  decodeWord 0b00000000001000100001100000100000#32 = .instr (.add 3 1 2) ∧
  decodeWord 0b00000000001000100000000000011010#32 = .instr (.div 1 2) ∧
  decodeWord 0b00000000000000000001100000010000#32 = .instr (.mfhi 3) ∧
  decodeWord 0b00100000001000101111111111111111#32 = .instr (.addi 2 1 0xffff#16) ∧
  decodeWord 0b00111100000000101000000000000001#32 = .instr (.lui 2 0 0x8001#16) ∧
  decodeWord 0b00010000001000100000000000000100#32 = .instr (.beq 1 2 0x0004#16) ∧
  decodeWord 0b00000100001100010000000000000011#32 = .instr (.bgezal 1 0x0003#16) ∧
  decodeWord 0b00001000000100000000000000000011#32 = .instr (.j 0x0100003#26) ∧
  decodeWord 0b00000000100000001111100000001001#32 = .instr (.jalr 31 4) ∧
  decodeWord 0b00000000000000000000000000001100#32 = .instr .syscall ∧
  decodeWord 0b10100000001000100000000000000001#32 = .instr (.sb 2 1 0x0001#16)

/-- Decode and encode agree for every well-formed instruction, every operand at every value: no bit is dropped. -/
def Obligations.DecodeInvertsEncode : Prop :=
  ∀ i : Instr, i.wf = true → decodeWord (encode i) = .instr i ∧
    decodeBytes (bytesOfWord (encode i)) = some (.instr i, [])

/-- The other direction: a word that is an instruction is a well-formed one, and is its encoding in every bit the
instruction reads (R79's ignored fields are D10, log 10). -/
def Obligations.EncodeInvertsDecode : Prop :=
  ∀ (w : Word) (i : Instr), decodeWord w = .instr i → i.wf = true ∧ encode i = w &&& i.readMask

/-- R79 (D10, log 10): a word that differs only in ignored fields is the same instruction. -/
def Obligations.IgnoredFieldsDoNotMatter : Prop :=
  ∀ (w w' : Word) (i : Instr), decodeWord w = .instr i → w' &&& i.readMask = w &&& i.readMask →
    decodeWord w' = .instr i

/-- R77 with the number lists of R74 to R76: exactly the words of no listed op, funct or rt are unrecognised, under the
selector that is not listed (D11, D12 and GK1: logs 9 and 11). -/
def Obligations.UnlistedSelectorsAreUnrecognised : Prop :=
  ∀ (w : Word) (u : Unknown), decodeWord w = .unknown u ↔
    (u = .op (opOf w) ∧ opOf w ∉ [0x00#6, 0x01#6, 0x02#6, 0x03#6, 0x04#6, 0x05#6, 0x06#6, 0x07#6, 0x08#6, 0x09#6,
      0x0c#6, 0x0d#6, 0x0e#6, 0x0f#6, 0x20#6, 0x21#6, 0x23#6, 0x24#6, 0x25#6, 0x28#6, 0x29#6, 0x2b#6]) ∨
    (u = .funct (functOf w) ∧ opOf w = 0x00#6 ∧ functOf w ∉ [0x00#6, 0x02#6, 0x03#6, 0x04#6, 0x06#6, 0x07#6, 0x08#6,
      0x09#6, 0x0c#6, 0x10#6, 0x11#6, 0x12#6, 0x13#6, 0x18#6, 0x19#6, 0x1a#6, 0x1b#6, 0x20#6, 0x21#6, 0x22#6, 0x23#6,
      0x24#6, 0x25#6, 0x26#6, 0x27#6, 0x2a#6, 0x2b#6]) ∨
    (u = .regimm (rtBits w) ∧ opOf w = 0x01#6 ∧ rtBits w ∉ [0x00#5, 0x01#5, 0x10#5, 0x11#5])

/-- R78: exactly three operand combinations are illegal (the op number of LUI is GK1, log 11). -/
def Obligations.ThreeIllegalCombinations : Prop :=
  ∀ (w : Word) (m : Illegal), decodeWord w = .illegal m ↔
    (m = .lui ∧ opOf w = 0x0f#6 ∧ rsBits w ≠ 0#5) ∨ (m = .blez ∧ opOf w = 0x06#6 ∧ rtBits w ≠ 0#5) ∨
    (m = .bgtz ∧ opOf w = 0x07#6 ∧ rtBits w ≠ 0#5)

/-! ### The step -/

/-- R91, R93: with the run flag true, a step whose fetch is answered with a well-formed instruction is that instruction
run on the state after the fetch, then committed (where HARDWIRED_ZERO is true the commit zeroes register 0). On the
reference memory the fetch is always answered, with the four bytes at PC (D4, D7, log 3). -/
def Obligations.StepRunsDecodedInstruction : Prop :=
  (∀ (s : State) (i : Instr), s.run = true → s.memFaults (.read s.pc) = false → i.wf = true →
    decodeWord (s.readWord s.pc) = .instr i →
    step s = commitResult (exec i { s with out := { runClear := false, diag := .none, calls := [.read s.pc] } })) ∧
  (∀ (s : State) (i : Instr), s.cfg.mem = .reference → s.run = true → i.wf = true →
    decodeWord (wordOfBytes (s.mem.readByte s.pc) (s.mem.readByte (s.pc + 1#32)) (s.mem.readByte (s.pc + 2#32))
      (s.mem.readByte (s.pc + 3#32))) = .instr i →
    step s = commitResult (exec i { s with out := { runClear := false, diag := .none, calls := [.read s.pc] } }))

/-- R94, R95: an unrecognised or illegal word reports its diagnostic and advances the PC by 4: nothing else (the diag
names are D16; UnknownRegimm is D11: logs 4 and 9). The first two clauses are the effect, the last two put it in a step
whose fetch is answered. -/
def Obligations.UnrecognisedAndIllegalOnlyAdvance : Prop :=
  (∀ (u : Unknown) (s : State), ReportsOnly (execDecoded (.unknown u) s) s
    (match u with | .op v => .unknownOp v | .funct v => .unknownFunct v | .regimm v => .unknownRegimm v)) ∧
  (∀ (m : Illegal) (s : State), ReportsOnly (execDecoded (.illegal m) s) s (.illegalOperand m)) ∧
  (∀ (s : State) (u : Unknown), s.run = true → s.memFaults (.read s.pc) = false →
    decodeWord (fetchedWord s) = .unknown u → step s = commitResult (execDecoded (.unknown u) (afterFetch s))) ∧
  (∀ (s : State) (m : Illegal), s.run = true → s.memFaults (.read s.pc) = false →
    decodeWord (fetchedWord s) = .illegal m → step s = commitResult (execDecoded (.illegal m) (afterFetch s)))

/-- R90 ("always terminates"), R230 (nothing traps): every instruction completes in every state in which the collaborator
faults on none of its data calls, and so does every step with the run flag true, whatever the word fetched; on the
reference memory, where no access fails (R40, R45; D4, log 3), always. -/
def Obligations.EveryRunningStepCompletes : Prop :=
  (∀ (i : Instr) (s : State), (∀ c ∈ dataCalls i s, s.memFaults c = false) → ∃ t, exec i s = .next t) ∧
  (∀ s : State, s.run = true → s.memFaults (.read s.pc) = false →
    (∀ c ∈ dataCallsOf (decodeWord (fetchedWord s)) s, s.memFaults c = false) → ∃ t, step s = .next t) ∧
  (∀ (i : Instr) (s : State), s.cfg.mem = .reference → ∃ t, exec i s = .next t) ∧
  (∀ s : State, s.cfg.mem = .reference → s.run = true → ∃ t, step s = .next t)

/-- U4 (log 15): the one way to a fault is that the collaborator faults on a call; the first such call of the
instruction, or of the step with its fetch before the data calls, is the one named. -/
def Obligations.OnlyTheCollaboratorFaults : Prop :=
  (∀ (i : Instr) (s : State) (f : Fault), exec i s = .fault f ↔
    ∃ c, (dataCalls i s).find? s.memFaults = some c ∧ f = .memoryCollaborator c) ∧
  (∀ (s : State) (f : Fault), step s = .fault f ↔ s.run = true ∧
    ∃ c, (.read s.pc :: dataCallsOf (decodeWord (fetchedWord s)) s).find? s.memFaults = some c ∧
      f = .memoryCollaborator c)

/-- R97 (D15, log 8): with the run flag false there is no step, and this is the only refusal. -/
def Obligations.StoppedMachineHasNoStep : Prop :=
  ∀ s : State, (s.run = false → step s = .refused .runFlagClear) ∧ (∀ r, step s = .refused r → s.run = false)

/-- R28: a step clears the run flag only by SYSCALL with REGS[2] = 0x0a (and there always), and no instruction sets it. -/
def Obligations.OnlyExitClearsRunFlag : Prop :=
  (∀ s t : State, step s = .next t →
    (t.run = false ↔ decodeWord (fetchedWord s) = .instr .syscall ∧ s.reg 2 = 0x0000000a#32)) ∧
  (∀ (i : Instr) (s t : State), exec i s = .next t → t.run = true → s.run = true)

/-- R201 with R200: after the step that clears the run flag the PC is the exit SYSCALL's address, the registers are as the
step left them, and no step follows (that step is refused by D15, log 8; register 0 is zeroed under HARDWIRED_ZERO by D1,
log 5); after every other step one does, which is not refused and on the reference memory completes (D4, log 3). -/
def Obligations.HaltedStateIsTheOnlyFinalState : Prop :=
  ∀ s t : State, step s = .next t →
    (t.run = false → decodeWord (fetchedWord s) = .instr .syscall ∧ t.pc = s.pc ∧
      (∀ r : Reg, t.reg r = if s.cfg.hardwiredZero = true ∧ r = 0 then 0#32 else s.reg r) ∧ t.hi = s.hi ∧
      t.lo = s.lo ∧ KeepsMemory s t ∧ t.out.runClear = true ∧ step t = .refused .runFlagClear) ∧
    (t.run = true → (∀ r, step t ≠ .refused r) ∧ (t.cfg.mem = .reference → ∃ u, step t = .next u))

/-- The table of R30 (which the spec marks as derived) and the carry-forward of R31, for all instructions: what is not
listed for an instruction it leaves unchanged. On the reference memory every byte outside those stored is kept (D4,
log 3); another collaborator is given the writes of the instruction's calls and no other (log 15). -/
def Obligations.OnlyListedFieldsChange : Prop :=
  ∀ (i : Instr) (s t : State), exec i s = .next t →
    (∀ r : Reg, regWritten i ≠ some r → t.reg r = s.reg r) ∧
    (mayWriteHi i = false → t.hi = s.hi) ∧ (mayWriteLo i = false → t.lo = s.lo) ∧
    (bytesStored i s = none → KeepsMemory s t) ∧
    (∀ a n, bytesStored i s = some (a, n) → s.cfg.mem = .reference → KeepsBytesOutside a n s t) ∧
    (∀ n, s.cfg.mem = .other n → t.mem = s.mem ∧ t.writes = s.writes ++ (dataCalls i s).filterMap writeOf) ∧
    (i ≠ .syscall → t.run = s.run) ∧ t.cfg = s.cfg

/-- R41, R42: the calls of a step on the memory port, by class and in order. -/
def Obligations.MemoryCallsOfAStep : Prop :=
  ∀ s t : State, step s = .next t →
    t.out.calls = .read s.pc :: dataCallsOf (decodeWord (fetchedWord s)) s

/-- R92 (modulo 2^32 by D2, log 12): the instructions not named as overriding it follow the default PC rule. -/
def Obligations.DefaultPcRule : Prop :=
  ∀ (i : Instr) (s t : State), exec i s = .next t → mayOverridePc i = false → t.pc = s.pc + 4#32

/-- R231, R233 (names and values by D16, log 4): a step's diagnostic is the one its word and divisor determine. -/
def Obligations.StepDiagnostic : Prop :=
  ∀ s t : State, step s = .next t → t.out.diag = stepDiag (fetchedWord s) s

/-- R33: no step reads the outputs of an earlier one. -/
def Obligations.OutputsAreNotReadBack : Prop :=
  ∀ (s : State) (o : StepOutput), step { s with out := o } = step s

/-- R98: a step depends on PC, the registers, HI, LO, the run flag, the parameters and the contents of the memory
collaborator, and on nothing else (canonical memories, as every run has: `StepKeepsInvariant`). -/
def Obligations.StepDependsOnArchitectureOnly : Prop :=
  ∀ s s' : State, s.mem.wf → s'.mem.wf → s'.pc = s.pc → KeepsRegs s s' → KeepsHiLo s s' →
    (∀ a : Word, s'.mem.readByte a = s.mem.readByte a) → s'.writes = s.writes → KeepsRunAndConfig s s' →
    step s' = step s

/-- R11, R22: no step changes the parameters; where HARDWIRED_ZERO is true register 0 is 0 after each step and nothing
else differs from the CORE's own result; where it is false the CORE's result stands (D1, log 5). -/
def Obligations.HardwiredZeroLayer : Prop :=
  ∀ s t : State, step s = .next t →
    t.cfg = s.cfg ∧
    ∃ u, execDecoded (decodeWord (fetchedWord s)) (afterFetch s) = .next u ∧
      (s.cfg.hardwiredZero = false → t = u) ∧
      (s.cfg.hardwiredZero = true → t.reg 0 = 0#32 ∧ KeepsOtherRegs 0 u t ∧ t.pc = u.pc ∧ KeepsHiLo u t ∧
        KeepsMemory u t ∧ KeepsPorts u t)

/-- The invariant of a run holds at reset (reset's values are the model's choice, logs 1, 2 and 4). -/
def Obligations.ResetMeetsInvariant : Prop := State.reset.Inv

/-- Every step keeps the invariant: canonical memory, register 0 held at 0 where HARDWIRED_ZERO is true, run_clear
asserted exactly when the run flag has just been cleared, the reference memory's contents in `mem` alone. -/
def Obligations.StepKeepsInvariant : Prop := ∀ s t : State, s.Inv → step s = .next t → t.Inv

/-- The model's choice of a start state (DESIGN CHOICE, logs 1, 2, 4 and 5): the conventions of 95_test_vectors.md. Only
the run flag's value is the spec's (R250). -/
def Obligations.ResetIsTheVectorsStartState : Prop :=
  State.reset.run = true ∧ State.reset.pc = 0x00400000#32 ∧ (∀ r : Reg, State.reset.reg r = 0#32) ∧
  State.reset.hi = 0#32 ∧ State.reset.lo = 0#32 ∧ (∀ a : Word, State.reset.mem.readByte a = 0#8) ∧
  State.reset.writes = [] ∧
  State.reset.cfg = { mem := .reference, hardwiredZero := false, div0 := .unchanged } ∧
  State.reset.out = { runClear := false, diag := .none, calls := [] }

/-! ### Memory -/

/-- The reference memory meets the contract of R40 and R43: it faults on no call and meets M1, M2 and M3; the byte at an
address is that of its contents (D4, log 3). -/
def Obligations.ReferenceMemoryMeetsContract : Prop :=
  (∀ c : Config, c.mem = .reference → MeetsContract c) ∧
  (∀ (s : State) (a : Word), s.cfg.mem = .reference → s.byteAt a = s.mem.readByte a)

/-- R45, R46 (D4, D5, D6, log 3): a word of the reference memory at any address is its four consecutive bytes, the lowest
address in the low bits, and a word write changes those four bytes only. -/
def Obligations.WordsAreFourBytesLittleEndian : Prop :=
  ∀ (s : State) (a v : Word), s.cfg.mem = .reference →
    (∀ k, k < 4 → (s.readWord a).extractLsb' (8 * k) 8 = s.mem.readByte (a + BitVec.ofNat 32 k)) ∧
    (∀ k, k < 4 → (s.writeWord a v).mem.readByte (a + BitVec.ofNat 32 k) = v.extractLsb' (8 * k) 8) ∧
    (∀ b : Word, (∀ k, k < 4 → b ≠ a + BitVec.ofNat 32 k) → (s.writeWord a v).mem.readByte b = s.mem.readByte b)

/-- Canonical memories that read alike are the same data. -/
def Obligations.CanonicalMemoriesAreEqual : Prop :=
  ∀ m m' : Memory, m.wf → m'.wf → (∀ a : Word, m.readByte a = m'.readByte a) → m = m'

/-- R210 (modulo 2^32 by D3, log 12): base plus signed displacement, unscaled, unmasked. -/
def Obligations.EffectiveAddress : Prop :=
  ∀ (s : State) (rs : Reg) (imm16 : BitVec 16),
    effAddr s rs imm16 = BitVec.ofInt 32 (imm16.toInt + (s.reg rs).toNat)

/-- R219 (which the spec marks as derived, from M1 to M3 of R43): under every collaborator that meets the contract, a load
of the same width, at the same address, after a store gives the stored unit, extended. -/
def Obligations.StoreLoadRoundTrip : Prop :=
  ∀ (rt rs rt' rs' : Reg) (imm16 imm16' : BitVec 16) (s : State), MeetsContract s.cfg →
    (∃ t, exec (.sb rt rs imm16) s = .next t ∧ (effAddr t rs' imm16' = effAddr s rs imm16 →
      (∃ u, exec (.lb rt' rs' imm16') t = .next u ∧
        u.reg rt' = BitVec.ofInt 32 ((s.reg rt).extractLsb' 0 8).toInt) ∧
      (∃ u, exec (.lbu rt' rs' imm16') t = .next u ∧
        u.reg rt' = BitVec.ofNat 32 ((s.reg rt).extractLsb' 0 8).toNat))) ∧
    (∃ t, exec (.sh rt rs imm16) s = .next t ∧ (effAddr t rs' imm16' = effAddr s rs imm16 →
      (∃ u, exec (.lh rt' rs' imm16') t = .next u ∧
        u.reg rt' = BitVec.ofInt 32 ((s.reg rt).extractLsb' 0 16).toInt) ∧
      (∃ u, exec (.lhu rt' rs' imm16') t = .next u ∧
        u.reg rt' = BitVec.ofNat 32 ((s.reg rt).extractLsb' 0 16).toNat))) ∧
    (∃ t, exec (.sw rt rs imm16) s = .next t ∧ (effAddr t rs' imm16' = effAddr s rs imm16 →
      ∃ u, exec (.lw rt' rs' imm16') t = .next u ∧ u.reg rt' = s.reg rt))

/-- R55, R255 (D7, log 3), under every collaborator that meets the contract (R43): a word stored over the next instruction
is the instruction the next step runs. -/
def Obligations.StoreIsSeenByNextFetch : Prop :=
  ∀ (s t : State) (rt rs : Reg) (imm16 : BitVec 16), MeetsContract s.cfg → step s = .next t →
    decodeWord (fetchedWord s) = .instr (.sw rt rs imm16) → effAddr s rs imm16 = s.pc + 4#32 →
    t.pc = s.pc + 4#32 ∧ fetchedWord t = s.reg rt ∧
    step t = commitResult (execDecoded (decodeWord (s.reg rt)) (afterFetch t))

/-! ### Shifts, arithmetic, logic, compare -/

/-- R100 to R102: encoding and effect of SLL, SRL and SRA. -/
def Obligations.ConstantShifts : Prop :=
  DecodesFunct 0x00#6 (fun w => .sll (rdOf w) (rtOf w) (shamtOf w)) ∧
  DecodesFunct 0x02#6 (fun w => .srl (rdOf w) (rtOf w) (shamtOf w)) ∧
  DecodesFunct 0x03#6 (fun w => .sra (rdOf w) (rtOf w) (shamtOf w)) ∧
  ∀ (rd rt : Reg) (shamt : Shamt) (s : State),
    WritesReg (exec (.sll rd rt shamt) s) s rd (BitVec.ofNat 32 ((s.reg rt).toNat * 2 ^ shamt.val)) ∧
    WritesReg (exec (.srl rd rt shamt) s) s rd (BitVec.ofNat 32 ((s.reg rt).toNat / 2 ^ shamt.val)) ∧
    WritesReg (exec (.sra rd rt shamt) s) s rd (BitVec.ofInt 32 ((s.reg rt).toInt / 2 ^ shamt.val))

/-- R103 to R105: encoding and effect of SLLV, SRLV and SRAV; the amount is the low 5 bits of x[rs]. -/
def Obligations.VariableShifts : Prop :=
  DecodesFunct 0x04#6 (fun w => .sllv (rdOf w) (rtOf w) (rsOf w)) ∧
  DecodesFunct 0x06#6 (fun w => .srlv (rdOf w) (rtOf w) (rsOf w)) ∧
  DecodesFunct 0x07#6 (fun w => .srav (rdOf w) (rtOf w) (rsOf w)) ∧
  ∀ (rd rt rs : Reg) (s : State),
    WritesReg (exec (.sllv rd rt rs) s) s rd (BitVec.ofNat 32 ((s.reg rt).toNat * 2 ^ ((s.reg rs).toNat % 32))) ∧
    WritesReg (exec (.srlv rd rt rs) s) s rd (BitVec.ofNat 32 ((s.reg rt).toNat / 2 ^ ((s.reg rs).toNat % 32))) ∧
    WritesReg (exec (.srav rd rt rs) s) s rd (BitVec.ofInt 32 ((s.reg rt).toInt / 2 ^ ((s.reg rs).toNat % 32)))

/-- R106 to R109: encoding and effect of ADD, ADDU, SUB and SUBU, modulo 2^32, without any overflow trap. -/
def Obligations.AddAndSubtract : Prop :=
  DecodesFunct 0x20#6 (fun w => .add (rdOf w) (rsOf w) (rtOf w)) ∧
  DecodesFunct 0x21#6 (fun w => .addu (rdOf w) (rsOf w) (rtOf w)) ∧
  DecodesFunct 0x22#6 (fun w => .sub (rdOf w) (rsOf w) (rtOf w)) ∧
  DecodesFunct 0x23#6 (fun w => .subu (rdOf w) (rsOf w) (rtOf w)) ∧
  ∀ (rd rs rt : Reg) (s : State),
    WritesReg (exec (.add rd rs rt) s) s rd (BitVec.ofNat 32 ((s.reg rs).toNat + (s.reg rt).toNat)) ∧
    WritesReg (exec (.addu rd rs rt) s) s rd (BitVec.ofNat 32 ((s.reg rs).toNat + (s.reg rt).toNat)) ∧
    WritesReg (exec (.sub rd rs rt) s) s rd (BitVec.ofInt 32 ((s.reg rs).toInt - (s.reg rt).toInt)) ∧
    WritesReg (exec (.subu rd rs rt) s) s rd (BitVec.ofInt 32 ((s.reg rs).toInt - (s.reg rt).toInt)) ∧
    exec (.add rd rs rt) s = exec (.addu rd rs rt) s ∧ exec (.sub rd rs rt) s = exec (.subu rd rs rt) s

/-- R110 to R113: encoding and effect of AND, OR, XOR and NOR. -/
def Obligations.BitwiseLogic : Prop :=
  DecodesFunct 0x24#6 (fun w => .and (rdOf w) (rsOf w) (rtOf w)) ∧
  DecodesFunct 0x25#6 (fun w => .or (rdOf w) (rsOf w) (rtOf w)) ∧
  DecodesFunct 0x26#6 (fun w => .xor (rdOf w) (rsOf w) (rtOf w)) ∧
  DecodesFunct 0x27#6 (fun w => .nor (rdOf w) (rsOf w) (rtOf w)) ∧
  ∀ (rd rs rt : Reg) (s : State),
    WritesReg (exec (.and rd rs rt) s) s rd (s.reg rs &&& s.reg rt) ∧
    WritesReg (exec (.or rd rs rt) s) s rd (s.reg rs ||| s.reg rt) ∧
    WritesReg (exec (.xor rd rs rt) s) s rd (s.reg rs ^^^ s.reg rt) ∧
    WritesReg (exec (.nor rd rs rt) s) s rd (~~~s.reg rs &&& ~~~s.reg rt)

/-- R114, R115: encoding and effect of SLT and SLTU. -/
def Obligations.SetOnLessThan : Prop :=
  DecodesFunct 0x2a#6 (fun w => .slt (rdOf w) (rsOf w) (rtOf w)) ∧
  DecodesFunct 0x2b#6 (fun w => .sltu (rdOf w) (rsOf w) (rtOf w)) ∧
  ∀ (rd rs rt : Reg) (s : State),
    WritesReg (exec (.slt rd rs rt) s) s rd (if (s.reg rs).toInt < (s.reg rt).toInt then 1#32 else 0#32) ∧
    WritesReg (exec (.sltu rd rs rt) s) s rd (if (s.reg rs).toNat < (s.reg rt).toNat then 1#32 else 0#32)

/-! ### Multiply, divide, HI and LO -/

/-- R131, R132: encoding and effect of MULT and MULTU: HI:LO is the exact 64-bit product. -/
def Obligations.MultiplyGivesExactProduct : Prop :=
  DecodesFunct 0x18#6 (fun w => .mult (rsOf w) (rtOf w)) ∧ DecodesFunct 0x19#6 (fun w => .multu (rsOf w) (rtOf w)) ∧
  ∀ (rs rt : Reg) (s : State),
    (∃ hi lo : Word, WritesHiLo (exec (.mult rs rt) s) s hi lo ∧
      (hi ++ lo : BitVec 64).toInt = (s.reg rs).toInt * (s.reg rt).toInt) ∧
    (∃ hi lo : Word, WritesHiLo (exec (.multu rs rt) s) s hi lo ∧
      (hi ++ lo : BitVec 64).toNat = (s.reg rs).toNat * (s.reg rt).toNat)

/-- The identities of R139 (which the spec marks as derived): MULT and MULTU give the same LO, and their HI differ by the
operands whose sign bit is set in the other. -/
def Obligations.SignedAndUnsignedProducts : Prop :=
  ∀ (rs rt : Reg) (s t u : State), exec (.mult rs rt) s = .next t → exec (.multu rs rt) s = .next u →
    t.lo = u.lo ∧
    t.hi = u.hi - (if (s.reg rs).getLsbD 31 then s.reg rt else 0#32) - (if (s.reg rt).getLsbD 31 then s.reg rs else 0#32)

/-- R133: encoding and effect of DIV: truncating quotient and remainder; -2^31 / -1 as R133's D9 (log 7); a zero divisor
reports and follows DIV0, whose value `unchanged` is R133's D8 and whose value `anyValue` is free (log 6). -/
def Obligations.DivideSigned : Prop :=
  DecodesFunct 0x1a#6 (fun w => .div (rsOf w) (rtOf w)) ∧
  ∀ (rs rt : Reg) (s : State),
    (s.reg rt ≠ 0#32 → ¬ (s.reg rs = 0x80000000#32 ∧ s.reg rt = 0xffffffff#32) →
      WritesHiLo (exec (.div rs rt) s) s (BitVec.ofInt 32 ((s.reg rs).toInt.tmod (s.reg rt).toInt))
        (BitVec.ofInt 32 ((s.reg rs).toInt.tdiv (s.reg rt).toInt))) ∧
    (s.reg rs = 0x80000000#32 → s.reg rt = 0xffffffff#32 →
      WritesHiLo (exec (.div rs rt) s) s 0x00000000#32 0x80000000#32) ∧
    (s.reg rt = 0#32 → s.cfg.div0 = .unchanged → ReportsOnly (exec (.div rs rt) s) s (.divideByZero .div)) ∧
    (s.reg rt = 0#32 → s.cfg.div0 = .anyValue →
      ReportsWithHiLo (exec (.div rs rt) s) s (.divideByZero .div)
        (Config.div0Result .div s.hi s.lo (s.reg rs)).1 (Config.div0Result .div s.hi s.lo (s.reg rs)).2)

/-- R134: encoding and effect of DIVU; a zero divisor as for DIV (log 6). -/
def Obligations.DivideUnsigned : Prop :=
  DecodesFunct 0x1b#6 (fun w => .divu (rsOf w) (rtOf w)) ∧
  ∀ (rs rt : Reg) (s : State),
    (s.reg rt ≠ 0#32 →
      WritesHiLo (exec (.divu rs rt) s) s (BitVec.ofNat 32 ((s.reg rs).toNat % (s.reg rt).toNat))
        (BitVec.ofNat 32 ((s.reg rs).toNat / (s.reg rt).toNat))) ∧
    (s.reg rt = 0#32 → s.cfg.div0 = .unchanged → ReportsOnly (exec (.divu rs rt) s) s (.divideByZero .divu)) ∧
    (s.reg rt = 0#32 → s.cfg.div0 = .anyValue →
      ReportsWithHiLo (exec (.divu rs rt) s) s (.divideByZero .divu)
        (Config.div0Result .divu s.hi s.lo (s.reg rs)).1 (Config.div0Result .divu s.hi s.lo (s.reg rs)).2)

/-- The division identities of R139 (which the spec marks as derived), on the HI and LO a division leaves. -/
def Obligations.DivisionIdentities : Prop :=
  (∀ (rs rt : Reg) (s t : State), exec (.div rs rt) s = .next t → s.reg rt ≠ 0#32 →
    ¬ (s.reg rs = 0x80000000#32 ∧ s.reg rt = 0xffffffff#32) →
    (s.reg rs).toInt = t.lo.toInt * (s.reg rt).toInt + t.hi.toInt ∧ |t.hi.toInt| < |(s.reg rt).toInt| ∧
    (t.hi.toInt = 0 ∨ (0 < t.hi.toInt ↔ 0 < (s.reg rs).toInt))) ∧
  (∀ (rs rt : Reg) (s t : State), exec (.divu rs rt) s = .next t → s.reg rt ≠ 0#32 →
    (s.reg rs).toNat = t.lo.toNat * (s.reg rt).toNat + t.hi.toNat ∧ t.hi.toNat < (s.reg rt).toNat)

/-- R135 to R138: encoding and effect of MFHI, MTHI, MFLO and MTLO. -/
def Obligations.HiLoMoves : Prop :=
  DecodesFunct 0x10#6 (fun w => .mfhi (rdOf w)) ∧ DecodesFunct 0x11#6 (fun w => .mthi (rsOf w)) ∧
  DecodesFunct 0x12#6 (fun w => .mflo (rdOf w)) ∧ DecodesFunct 0x13#6 (fun w => .mtlo (rsOf w)) ∧
  ∀ (r : Reg) (s : State),
    WritesReg (exec (.mfhi r) s) s r s.hi ∧ WritesReg (exec (.mflo r) s) s r s.lo ∧
    WritesHiLo (exec (.mthi r) s) s (s.reg r) s.lo ∧ WritesHiLo (exec (.mtlo r) s) s s.hi (s.reg r)

/-! ### Immediates -/

/-- R151, R152: encoding and effect of ADDI and ADDIU (op numbers GK1, no overflow trap D19: logs 11 and 13). -/
def Obligations.AddImmediates : Prop :=
  DecodesOp 0x08#6 (fun w => .addi (rtOf w) (rsOf w) (imm16Of w)) ∧
  DecodesOp 0x09#6 (fun w => .addiu (rtOf w) (rsOf w) (imm16Of w)) ∧
  ∀ (rt rs : Reg) (imm16 : BitVec 16) (s : State),
    WritesReg (exec (.addi rt rs imm16) s) s rt (BitVec.ofInt 32 ((s.reg rs).toInt + imm16.toInt)) ∧
    WritesReg (exec (.addiu rt rs imm16) s) s rt (BitVec.ofInt 32 ((s.reg rs).toInt + imm16.toInt))

/-- R153 to R155: encoding and effect of ANDI, ORI and XORI, half by half (op numbers GK1, log 11). -/
def Obligations.LogicalImmediates : Prop :=
  DecodesOp 0x0c#6 (fun w => .andi (rtOf w) (rsOf w) (imm16Of w)) ∧
  DecodesOp 0x0d#6 (fun w => .ori (rtOf w) (rsOf w) (imm16Of w)) ∧
  DecodesOp 0x0e#6 (fun w => .xori (rtOf w) (rsOf w) (imm16Of w)) ∧
  ∀ (rt rs : Reg) (imm16 : BitVec 16) (s : State),
    WritesReg (exec (.andi rt rs imm16) s) s rt (0x0000#16 ++ ((s.reg rs).extractLsb' 0 16 &&& imm16)) ∧
    WritesReg (exec (.ori rt rs imm16) s) s rt
      ((s.reg rs).extractLsb' 16 16 ++ ((s.reg rs).extractLsb' 0 16 ||| imm16)) ∧
    WritesReg (exec (.xori rt rs imm16) s) s rt
      ((s.reg rs).extractLsb' 16 16 ++ ((s.reg rs).extractLsb' 0 16 ^^^ imm16))

/-- R156: encoding and effect of LUI; with rs ≠ 0 the diagnostic and nothing else (op number GK1, log 11). -/
def Obligations.LoadUpperImmediate : Prop :=
  DecodesOpWithZero 0x0f#6 rsBits .lui (fun w => .lui (rtOf w) (rsOf w) (imm16Of w)) ∧
  (∀ s : State, ReportsOnly (execDecoded (.illegal .lui) s) s (.illegalOperand .lui)) ∧
  ∀ (rt rs : Reg) (imm16 : BitVec 16) (s : State),
    if rs = 0 then WritesReg (exec (.lui rt rs imm16) s) s rt (imm16 ++ 0x0000#16)
    else ReportsOnly (exec (.lui rt rs imm16) s) s (.illegalOperand .lui)

/-! ### Branches and jumps -/

/-- R171, R172: encoding and effect of BEQ and BNE. -/
def Obligations.BranchesOnEquality : Prop :=
  DecodesOp 0x04#6 (fun w => .beq (rsOf w) (rtOf w) (imm16Of w)) ∧
  DecodesOp 0x05#6 (fun w => .bne (rsOf w) (rtOf w) (imm16Of w)) ∧
  ∀ (rs rt : Reg) (imm16 : BitVec 16) (s : State),
    GoesTo (exec (.beq rs rt imm16) s) s
      (if s.reg rs = s.reg rt then s.pc + 4#32 + BitVec.ofInt 32 (4 * imm16.toInt) else s.pc + 4#32) ∧
    GoesTo (exec (.bne rs rt imm16) s) s
      (if s.reg rs = s.reg rt then s.pc + 4#32 else s.pc + 4#32 + BitVec.ofInt 32 (4 * imm16.toInt))

/-- R173, R174: encoding and effect of BLEZ and BGTZ; with rt ≠ 0 the diagnostic, pc + 4 and nothing else. -/
def Obligations.BranchesAgainstZero : Prop :=
  DecodesOpWithZero 0x06#6 rtBits .blez (fun w => .blez (rsOf w) (rtOf w) (imm16Of w)) ∧
  DecodesOpWithZero 0x07#6 rtBits .bgtz (fun w => .bgtz (rsOf w) (rtOf w) (imm16Of w)) ∧
  (∀ s : State, ReportsOnly (execDecoded (.illegal .blez) s) s (.illegalOperand .blez) ∧
    ReportsOnly (execDecoded (.illegal .bgtz) s) s (.illegalOperand .bgtz)) ∧
  ∀ (rs rt : Reg) (imm16 : BitVec 16) (s : State),
    if rt = 0 then
      GoesTo (exec (.blez rs rt imm16) s) s
        (if (s.reg rs).toInt ≤ 0 then s.pc + 4#32 + BitVec.ofInt 32 (4 * imm16.toInt) else s.pc + 4#32) ∧
      GoesTo (exec (.bgtz rs rt imm16) s) s
        (if 0 < (s.reg rs).toInt then s.pc + 4#32 + BitVec.ofInt 32 (4 * imm16.toInt) else s.pc + 4#32)
    else
      ReportsOnly (exec (.blez rs rt imm16) s) s (.illegalOperand .blez) ∧
      ReportsOnly (exec (.bgtz rs rt imm16) s) s (.illegalOperand .bgtz)

/-- R175, R176: encoding and effect of BLTZ and BGEZ; the condition is the sign bit. -/
def Obligations.BranchesOnSign : Prop :=
  DecodesRegimm 0x00#5 (fun w => .bltz (rsOf w) (imm16Of w)) ∧
  DecodesRegimm 0x01#5 (fun w => .bgez (rsOf w) (imm16Of w)) ∧
  ∀ (rs : Reg) (imm16 : BitVec 16) (s : State),
    GoesTo (exec (.bltz rs imm16) s) s
      (if (s.reg rs).getLsbD 31 then s.pc + 4#32 + BitVec.ofInt 32 (4 * imm16.toInt) else s.pc + 4#32) ∧
    GoesTo (exec (.bgez rs imm16) s) s
      (if (s.reg rs).getLsbD 31 then s.pc + 4#32 else s.pc + 4#32 + BitVec.ofInt 32 (4 * imm16.toInt))

/-- R177, R178: encoding and effect of BLTZAL and BGEZAL: the link in register 31 whether or not the branch is taken, the
condition on the old x[rs] (rs = 31 included). That their op is 0x01 the spec derives (R76) with GK2's support: log 11. -/
def Obligations.BranchesAndLink : Prop :=
  DecodesRegimm 0x10#5 (fun w => .bltzal (rsOf w) (imm16Of w)) ∧
  DecodesRegimm 0x11#5 (fun w => .bgezal (rsOf w) (imm16Of w)) ∧
  ∀ (rs : Reg) (imm16 : BitVec 16) (s : State),
    WritesRegAndGoes (exec (.bltzal rs imm16) s) s 31 (s.pc + 4#32)
      (if (s.reg rs).getLsbD 31 then s.pc + 4#32 + BitVec.ofInt 32 (4 * imm16.toInt) else s.pc + 4#32) ∧
    WritesRegAndGoes (exec (.bgezal rs imm16) s) s 31 (s.pc + 4#32)
      (if (s.reg rs).getLsbD 31 then s.pc + 4#32 else s.pc + 4#32 + BitVec.ofInt 32 (4 * imm16.toInt))

/-- R191, R192: encoding and effect of J and JAL: the top four bits of the jump's own PC, then target26, then 00. -/
def Obligations.JumpsToTarget : Prop :=
  DecodesOp 0x02#6 (fun w => .j (target26Of w)) ∧ DecodesOp 0x03#6 (fun w => .jal (target26Of w)) ∧
  ∀ (target26 : BitVec 26) (s : State),
    GoesTo (exec (.j target26) s) s (s.pc.extractLsb' 28 4 ++ target26 ++ 0#2) ∧
    WritesRegAndGoes (exec (.jal target26) s) s 31 (s.pc + 4#32) (s.pc.extractLsb' 28 4 ++ target26 ++ 0#2)

/-- R193, R194: encoding and effect of JR and JALR: any x[rs] is a target, and JALR's is the old x[rs] also where
rd = rs. -/
def Obligations.JumpsToRegister : Prop :=
  DecodesFunct 0x08#6 (fun w => .jr (rsOf w)) ∧ DecodesFunct 0x09#6 (fun w => .jalr (rdOf w) (rsOf w)) ∧
  ∀ (rd rs : Reg) (s : State),
    GoesTo (exec (.jr rs) s) s (s.reg rs) ∧
    WritesRegAndGoes (exec (.jalr rd rs) s) s rd (s.pc + 4#32) (s.reg rs)

/-! ### System call -/

/-- R200: encoding and effect of SYSCALL: exit with REGS[2] = 0x0a, and otherwise pc + 4 and nothing else. -/
def Obligations.SystemCall : Prop :=
  DecodesFunct 0x0c#6 (fun _ => .syscall) ∧
  ∀ s : State,
    if s.reg 2 = 0x0000000a#32 then
      ∃ t, exec .syscall s = .next t ∧ t.run = false ∧ t.pc = s.pc ∧ KeepsRegs s t ∧ KeepsHiLo s t ∧ KeepsMemory s t ∧
        t.cfg = s.cfg ∧ t.out = { s.out with runClear := true }
    else GoesTo (exec .syscall s) s (s.pc + 4#32)

/-! ### Loads and stores: under any collaborator that faults on none of the calls, and on the reference memory -/

/-- R211, R212: encoding and effect of LB and LBU: the byte the port answers at the effective address, which is that byte
of the reference memory (op numbers GK1, log 11; D4, log 3; other collaborators, log 15). -/
def Obligations.LoadBytes : Prop :=
  DecodesOp 0x20#6 (fun w => .lb (rtOf w) (rsOf w) (imm16Of w)) ∧
  DecodesOp 0x24#6 (fun w => .lbu (rtOf w) (rsOf w) (imm16Of w)) ∧
  (∀ (rt rs : Reg) (imm16 : BitVec 16) (s : State), s.memFaults (.read (effAddr s rs imm16)) = false →
    Loads (exec (.lb rt rs imm16) s) s rt (BitVec.ofInt 32 (s.byteAt (effAddr s rs imm16)).toInt)
      (effAddr s rs imm16) ∧
    Loads (exec (.lbu rt rs imm16) s) s rt (BitVec.ofNat 32 (s.byteAt (effAddr s rs imm16)).toNat)
      (effAddr s rs imm16)) ∧
  ∀ (rt rs : Reg) (imm16 : BitVec 16) (s : State), s.cfg.mem = .reference →
    Loads (exec (.lb rt rs imm16) s) s rt (BitVec.ofInt 32 (s.mem.readByte (effAddr s rs imm16)).toInt)
      (effAddr s rs imm16) ∧
    Loads (exec (.lbu rt rs imm16) s) s rt (BitVec.ofNat 32 (s.mem.readByte (effAddr s rs imm16)).toNat)
      (effAddr s rs imm16)

/-- R213, R214: encoding and effect of LH and LHU: the half the port answers at the effective address, which on the
reference memory is its two bytes from there, at any address (logs 3, 11 and 15). -/
def Obligations.LoadHalves : Prop :=
  DecodesOp 0x21#6 (fun w => .lh (rtOf w) (rsOf w) (imm16Of w)) ∧
  DecodesOp 0x25#6 (fun w => .lhu (rtOf w) (rsOf w) (imm16Of w)) ∧
  (∀ (rt rs : Reg) (imm16 : BitVec 16) (s : State), s.memFaults (.read (effAddr s rs imm16)) = false →
    Loads (exec (.lh rt rs imm16) s) s rt
      (BitVec.ofInt 32 ((s.readWord (effAddr s rs imm16)).extractLsb' 0 16).toInt) (effAddr s rs imm16) ∧
    Loads (exec (.lhu rt rs imm16) s) s rt
      (BitVec.ofNat 32 ((s.readWord (effAddr s rs imm16)).extractLsb' 0 16).toNat) (effAddr s rs imm16)) ∧
  ∀ (rt rs : Reg) (imm16 : BitVec 16) (s : State), s.cfg.mem = .reference →
    Loads (exec (.lh rt rs imm16) s) s rt
      (BitVec.ofInt 32 (s.mem.readByte (effAddr s rs imm16 + 1#32) ++ s.mem.readByte (effAddr s rs imm16)).toInt)
      (effAddr s rs imm16) ∧
    Loads (exec (.lhu rt rs imm16) s) s rt
      (BitVec.ofNat 32 (s.mem.readByte (effAddr s rs imm16 + 1#32) ++ s.mem.readByte (effAddr s rs imm16)).toNat)
      (effAddr s rs imm16)

/-- R215: encoding and effect of LW: the word the port answers at the effective address, which on the reference memory is
its four bytes from there, at any address (logs 3, 11 and 15). -/
def Obligations.LoadWord : Prop :=
  DecodesOp 0x23#6 (fun w => .lw (rtOf w) (rsOf w) (imm16Of w)) ∧
  (∀ (rt rs : Reg) (imm16 : BitVec 16) (s : State), s.memFaults (.read (effAddr s rs imm16)) = false →
    Loads (exec (.lw rt rs imm16) s) s rt (s.readWord (effAddr s rs imm16)) (effAddr s rs imm16)) ∧
  ∀ (rt rs : Reg) (imm16 : BitVec 16) (s : State), s.cfg.mem = .reference →
    Loads (exec (.lw rt rs imm16) s) s rt
      (s.mem.readByte (effAddr s rs imm16 + 3#32) ++ s.mem.readByte (effAddr s rs imm16 + 2#32) ++
        s.mem.readByte (effAddr s rs imm16 + 1#32) ++ s.mem.readByte (effAddr s rs imm16))
      (effAddr s rs imm16)

/-- R216, R217: encoding and effect of SB and SH: one read then one write of the merged word at the unmasked effective
address, under any collaborator; under one that meets the contract, and on the reference memory, the low byte or half of
x[rt] at that address, every other byte as before (logs 3, 11 and 15). -/
def Obligations.StoreByteAndHalf : Prop :=
  DecodesOp 0x28#6 (fun w => .sb (rtOf w) (rsOf w) (imm16Of w)) ∧
  DecodesOp 0x29#6 (fun w => .sh (rtOf w) (rsOf w) (imm16Of w)) ∧
  (∀ (rt rs : Reg) (imm16 : BitVec 16) (s : State) (a v : Word), a = effAddr s rs imm16 →
    v = (s.readWord a).extractLsb' 8 24 ++ (s.reg rt).extractLsb' 0 8 →
    (s.memFaults (.read a) = false → s.memFaults (.write a v) = false →
      WritesWord (exec (.sb rt rs imm16) s) s a v [.read a, .write a v]) ∧
    (s.cfg.mem = .reference ∨ MeetsContract s.cfg →
      Stores (exec (.sb rt rs imm16) s) s a 1 (s.reg rt) [.read a, .write a v])) ∧
  ∀ (rt rs : Reg) (imm16 : BitVec 16) (s : State) (a v : Word), a = effAddr s rs imm16 →
    v = (s.readWord a).extractLsb' 16 16 ++ (s.reg rt).extractLsb' 0 16 →
    (s.memFaults (.read a) = false → s.memFaults (.write a v) = false →
      WritesWord (exec (.sh rt rs imm16) s) s a v [.read a, .write a v]) ∧
    (s.cfg.mem = .reference ∨ MeetsContract s.cfg →
      Stores (exec (.sh rt rs imm16) s) s a 2 (s.reg rt) [.read a, .write a v])

/-- R218: encoding and effect of SW: one write and no read, under any collaborator; on the reference memory the four bytes
from the effective address take x[rt], every other byte as before (logs 3, 11 and 15). -/
def Obligations.StoreWord : Prop :=
  DecodesOp 0x2b#6 (fun w => .sw (rtOf w) (rsOf w) (imm16Of w)) ∧
  (∀ (rt rs : Reg) (imm16 : BitVec 16) (s : State), s.memFaults (.write (effAddr s rs imm16) (s.reg rt)) = false →
    WritesWord (exec (.sw rt rs imm16) s) s (effAddr s rs imm16) (s.reg rt) [.write (effAddr s rs imm16) (s.reg rt)]) ∧
  ∀ (rt rs : Reg) (imm16 : BitVec 16) (s : State), s.cfg.mem = .reference →
    Stores (exec (.sw rt rs imm16) s) s (effAddr s rs imm16) 4 (s.reg rt) [.write (effAddr s rs imm16) (s.reg rt)]
end

