-- ==== Sys2Proof/Laws/State.lean ====
section
/-! SUPPORT. What each update of State leaves in each field, and the register file's read-after-write laws. -/

namespace Sys2Proof.Machine.State

@[simp] theorem setReg_pc (s : State) (r : Reg) (v : Word) : (s.setReg r v).pc = s.pc := rfl
@[simp] theorem setReg_regs (s : State) (r : Reg) (v : Word) : (s.setReg r v).regs = s.regs.set r v := rfl
@[simp] theorem setReg_hi (s : State) (r : Reg) (v : Word) : (s.setReg r v).hi = s.hi := rfl
@[simp] theorem setReg_lo (s : State) (r : Reg) (v : Word) : (s.setReg r v).lo = s.lo := rfl
@[simp] theorem setReg_mem (s : State) (r : Reg) (v : Word) : (s.setReg r v).mem = s.mem := rfl
@[simp] theorem setReg_writes (s : State) (r : Reg) (v : Word) : (s.setReg r v).writes = s.writes := rfl
@[simp] theorem setReg_run (s : State) (r : Reg) (v : Word) : (s.setReg r v).run = s.run := rfl
@[simp] theorem setReg_out (s : State) (r : Reg) (v : Word) : (s.setReg r v).out = s.out := rfl
@[simp] theorem setReg_cfg (s : State) (r : Reg) (v : Word) : (s.setReg r v).cfg = s.cfg := rfl

@[simp] theorem setHi_pc (s : State) (v : Word) : (s.setHi v).pc = s.pc := rfl
@[simp] theorem setHi_regs (s : State) (v : Word) : (s.setHi v).regs = s.regs := rfl
@[simp] theorem setHi_hi (s : State) (v : Word) : (s.setHi v).hi = v := rfl
@[simp] theorem setHi_lo (s : State) (v : Word) : (s.setHi v).lo = s.lo := rfl
@[simp] theorem setHi_mem (s : State) (v : Word) : (s.setHi v).mem = s.mem := rfl
@[simp] theorem setHi_writes (s : State) (v : Word) : (s.setHi v).writes = s.writes := rfl
@[simp] theorem setHi_run (s : State) (v : Word) : (s.setHi v).run = s.run := rfl
@[simp] theorem setHi_out (s : State) (v : Word) : (s.setHi v).out = s.out := rfl
@[simp] theorem setHi_cfg (s : State) (v : Word) : (s.setHi v).cfg = s.cfg := rfl
@[simp] theorem setHi_reg (s : State) (v : Word) (q : Reg) : (s.setHi v).reg q = s.reg q := rfl

@[simp] theorem setLo_pc (s : State) (v : Word) : (s.setLo v).pc = s.pc := rfl
@[simp] theorem setLo_regs (s : State) (v : Word) : (s.setLo v).regs = s.regs := rfl
@[simp] theorem setLo_hi (s : State) (v : Word) : (s.setLo v).hi = s.hi := rfl
@[simp] theorem setLo_lo (s : State) (v : Word) : (s.setLo v).lo = v := rfl
@[simp] theorem setLo_mem (s : State) (v : Word) : (s.setLo v).mem = s.mem := rfl
@[simp] theorem setLo_writes (s : State) (v : Word) : (s.setLo v).writes = s.writes := rfl
@[simp] theorem setLo_run (s : State) (v : Word) : (s.setLo v).run = s.run := rfl
@[simp] theorem setLo_out (s : State) (v : Word) : (s.setLo v).out = s.out := rfl
@[simp] theorem setLo_cfg (s : State) (v : Word) : (s.setLo v).cfg = s.cfg := rfl
@[simp] theorem setLo_reg (s : State) (v : Word) (q : Reg) : (s.setLo v).reg q = s.reg q := rfl

@[simp] theorem setPc_pc (s : State) (v : Word) : (s.setPc v).pc = v := rfl
@[simp] theorem setPc_regs (s : State) (v : Word) : (s.setPc v).regs = s.regs := rfl
@[simp] theorem setPc_hi (s : State) (v : Word) : (s.setPc v).hi = s.hi := rfl
@[simp] theorem setPc_lo (s : State) (v : Word) : (s.setPc v).lo = s.lo := rfl
@[simp] theorem setPc_mem (s : State) (v : Word) : (s.setPc v).mem = s.mem := rfl
@[simp] theorem setPc_writes (s : State) (v : Word) : (s.setPc v).writes = s.writes := rfl
@[simp] theorem setPc_run (s : State) (v : Word) : (s.setPc v).run = s.run := rfl
@[simp] theorem setPc_out (s : State) (v : Word) : (s.setPc v).out = s.out := rfl
@[simp] theorem setPc_cfg (s : State) (v : Word) : (s.setPc v).cfg = s.cfg := rfl
@[simp] theorem setPc_reg (s : State) (v : Word) (q : Reg) : (s.setPc v).reg q = s.reg q := rfl

@[simp] theorem report_pc (s : State) (d : Diag) : (s.report d).pc = s.pc := rfl
@[simp] theorem report_regs (s : State) (d : Diag) : (s.report d).regs = s.regs := rfl
@[simp] theorem report_hi (s : State) (d : Diag) : (s.report d).hi = s.hi := rfl
@[simp] theorem report_lo (s : State) (d : Diag) : (s.report d).lo = s.lo := rfl
@[simp] theorem report_mem (s : State) (d : Diag) : (s.report d).mem = s.mem := rfl
@[simp] theorem report_writes (s : State) (d : Diag) : (s.report d).writes = s.writes := rfl
@[simp] theorem report_run (s : State) (d : Diag) : (s.report d).run = s.run := rfl
@[simp] theorem report_out (s : State) (d : Diag) : (s.report d).out = { s.out with diag := d } := rfl
@[simp] theorem report_cfg (s : State) (d : Diag) : (s.report d).cfg = s.cfg := rfl
@[simp] theorem report_reg (s : State) (d : Diag) (q : Reg) : (s.report d).reg q = s.reg q := rfl

@[simp] theorem clearRun_pc (s : State) : (s.clearRun).pc = s.pc := rfl
@[simp] theorem clearRun_regs (s : State) : (s.clearRun).regs = s.regs := rfl
@[simp] theorem clearRun_hi (s : State) : (s.clearRun).hi = s.hi := rfl
@[simp] theorem clearRun_lo (s : State) : (s.clearRun).lo = s.lo := rfl
@[simp] theorem clearRun_mem (s : State) : (s.clearRun).mem = s.mem := rfl
@[simp] theorem clearRun_writes (s : State) : (s.clearRun).writes = s.writes := rfl
@[simp] theorem clearRun_run (s : State) : (s.clearRun).run = false := rfl
@[simp] theorem clearRun_out (s : State) : (s.clearRun).out = { s.out with runClear := true } := rfl
@[simp] theorem clearRun_cfg (s : State) : (s.clearRun).cfg = s.cfg := rfl
@[simp] theorem clearRun_reg (s : State) (q : Reg) : (s.clearRun).reg q = s.reg q := rfl

@[simp] theorem call_pc (s : State) (c : MemCall) : (s.call c).pc = s.pc := rfl
@[simp] theorem call_regs (s : State) (c : MemCall) : (s.call c).regs = s.regs := rfl
@[simp] theorem call_hi (s : State) (c : MemCall) : (s.call c).hi = s.hi := rfl
@[simp] theorem call_lo (s : State) (c : MemCall) : (s.call c).lo = s.lo := rfl
@[simp] theorem call_mem (s : State) (c : MemCall) : (s.call c).mem = s.mem := rfl
@[simp] theorem call_writes (s : State) (c : MemCall) : (s.call c).writes = s.writes := rfl
@[simp] theorem call_run (s : State) (c : MemCall) : (s.call c).run = s.run := rfl
@[simp] theorem call_out (s : State) (c : MemCall) : (s.call c).out = { s.out with calls := s.out.calls ++ [c] } := rfl
@[simp] theorem call_cfg (s : State) (c : MemCall) : (s.call c).cfg = s.cfg := rfl
@[simp] theorem call_reg (s : State) (c : MemCall) (q : Reg) : (s.call c).reg q = s.reg q := rfl

@[simp] theorem writeWord_pc (s : State) (a v : Word) : (s.writeWord a v).pc = s.pc := rfl
@[simp] theorem writeWord_regs (s : State) (a v : Word) : (s.writeWord a v).regs = s.regs := rfl
@[simp] theorem writeWord_hi (s : State) (a v : Word) : (s.writeWord a v).hi = s.hi := rfl
@[simp] theorem writeWord_lo (s : State) (a v : Word) : (s.writeWord a v).lo = s.lo := rfl
@[simp] theorem writeWord_run (s : State) (a v : Word) : (s.writeWord a v).run = s.run := rfl
@[simp] theorem writeWord_out (s : State) (a v : Word) : (s.writeWord a v).out = s.out := rfl
@[simp] theorem writeWord_cfg (s : State) (a v : Word) : (s.writeWord a v).cfg = s.cfg := rfl
@[simp] theorem writeWord_reg (s : State) (a v : Word) (q : Reg) : (s.writeWord a v).reg q = s.reg q := rfl

/-- Under the reference memory a write goes to the contents. -/
theorem writeWord_mem_of_reference {s : State} (h : s.cfg.mem = .reference) (a v : Word) :
    (s.writeWord a v).mem = s.mem.writeWord a v := by simp [writeWord, h]
theorem writeWord_writes_of_reference {s : State} (h : s.cfg.mem = .reference) (a v : Word) :
    (s.writeWord a v).writes = s.writes := by simp [writeWord, h]

/-- Under another collaborator a write is put after those it has accepted. -/
theorem writeWord_mem_of_other {s : State} {n : Nat} (h : s.cfg.mem = .other n) (a v : Word) :
    (s.writeWord a v).mem = s.mem := by simp [writeWord, h]
theorem writeWord_writes_of_other {s : State} {n : Nat} (h : s.cfg.mem = .other n) (a v : Word) :
    (s.writeWord a v).writes = s.writes ++ [(a, v)] := by simp [writeWord, h]

@[simp] theorem beginStep_pc (s : State) : (s.beginStep).pc = s.pc := rfl
@[simp] theorem beginStep_regs (s : State) : (s.beginStep).regs = s.regs := rfl
@[simp] theorem beginStep_hi (s : State) : (s.beginStep).hi = s.hi := rfl
@[simp] theorem beginStep_lo (s : State) : (s.beginStep).lo = s.lo := rfl
@[simp] theorem beginStep_mem (s : State) : (s.beginStep).mem = s.mem := rfl
@[simp] theorem beginStep_writes (s : State) : (s.beginStep).writes = s.writes := rfl
@[simp] theorem beginStep_run (s : State) : (s.beginStep).run = s.run := rfl
@[simp] theorem beginStep_out (s : State) : (s.beginStep).out = StepOutput.idle := rfl
@[simp] theorem beginStep_cfg (s : State) : (s.beginStep).cfg = s.cfg := rfl
@[simp] theorem beginStep_reg (s : State) (q : Reg) : (s.beginStep).reg q = s.reg q := rfl

@[simp] theorem loadAtPc_pc (s : State) (w : Word) : (s.loadAtPc w).pc = s.pc := rfl
@[simp] theorem loadAtPc_regs (s : State) (w : Word) : (s.loadAtPc w).regs = s.regs := rfl
@[simp] theorem loadAtPc_hi (s : State) (w : Word) : (s.loadAtPc w).hi = s.hi := rfl
@[simp] theorem loadAtPc_lo (s : State) (w : Word) : (s.loadAtPc w).lo = s.lo := rfl
@[simp] theorem loadAtPc_mem (s : State) (w : Word) : (s.loadAtPc w).mem = (s.writeWord s.pc w).mem := rfl
@[simp] theorem loadAtPc_writes (s : State) (w : Word) : (s.loadAtPc w).writes = (s.writeWord s.pc w).writes := rfl
@[simp] theorem loadAtPc_run (s : State) (w : Word) : (s.loadAtPc w).run = true := rfl
@[simp] theorem loadAtPc_out (s : State) (w : Word) : (s.loadAtPc w).out = s.out := rfl
@[simp] theorem loadAtPc_cfg (s : State) (w : Word) : (s.loadAtPc w).cfg = s.cfg := rfl
@[simp] theorem loadAtPc_reg (s : State) (w : Word) (q : Reg) : (s.loadAtPc w).reg q = s.reg q := rfl

@[simp] theorem reg_setReg_same (s : State) (r : Reg) (v : Word) : (s.setReg r v).reg r = v := by
  simp [State.reg, State.setReg]

theorem reg_setReg_of_ne (s : State) {q r : Reg} (v : Word) (h : q ≠ r) : (s.setReg r v).reg q = s.reg q := by
  have h' : r.val ≠ q.val := fun e => h (Fin.ext e.symm)
  simp [State.reg, State.setReg, Vector.getElem_set_ne, h']

/-- Read after write in the register file, register 0 included (10_state.md R22). -/
theorem reg_setReg (s : State) (q r : Reg) (v : Word) :
    (s.setReg r v).reg q = if q = r then v else s.reg q := by
  by_cases h : q = r
  · subst h; simp
  · simp [h, reg_setReg_of_ne s v h]

@[simp] theorem nextPc_eq (s : State) : s.nextPc = s.pc + 4#32 := rfl

/-! ### The memory port sees only the parameter MEM and the contents -/

/-- What the port answers depends on the parameter and the contents alone. -/
theorem readWord_congr {s t : State} (hc : t.cfg.mem = s.cfg.mem) (hm : t.mem = s.mem) (hw : t.writes = s.writes)
    (a : Word) : t.readWord a = s.readWord a := by simp [readWord, hc, hm, hw]

theorem memFaults_congr {s t : State} (hc : t.cfg.mem = s.cfg.mem) (hm : t.mem = s.mem) (hw : t.writes = s.writes)
    (c : MemCall) : t.memFaults c = s.memFaults c := by simp [memFaults, hc, hm, hw]

theorem readWord_of_reference {s : State} (h : s.cfg.mem = .reference) (a : Word) : s.readWord a = s.mem.readWord a := by
  simp [readWord, h]

theorem memFaults_of_reference {s : State} (h : s.cfg.mem = .reference) (c : MemCall) : s.memFaults c = false := by
  simp [memFaults, h]

@[simp] theorem readWord_call (s : State) (c : MemCall) (a : Word) : (s.call c).readWord a = s.readWord a := rfl
@[simp] theorem memFaults_call (s : State) (c d : MemCall) : (s.call c).memFaults d = s.memFaults d := rfl
@[simp] theorem readWord_beginStep (s : State) (a : Word) : s.beginStep.readWord a = s.readWord a := rfl
@[simp] theorem memFaults_beginStep (s : State) (c : MemCall) : s.beginStep.memFaults c = s.memFaults c := rfl
@[simp] theorem readWord_setReg (s : State) (r : Reg) (v a : Word) : (s.setReg r v).readWord a = s.readWord a := rfl
@[simp] theorem readWord_setPc (s : State) (v a : Word) : (s.setPc v).readWord a = s.readWord a := rfl
@[simp] theorem readWord_setHi (s : State) (v a : Word) : (s.setHi v).readWord a = s.readWord a := rfl
@[simp] theorem readWord_setLo (s : State) (v a : Word) : (s.setLo v).readWord a = s.readWord a := rfl
@[simp] theorem readWord_report (s : State) (d : Diag) (a : Word) : (s.report d).readWord a = s.readWord a := rfl
@[simp] theorem readWord_clearRun (s : State) (a : Word) : s.clearRun.readWord a = s.readWord a := rfl

/-- Two states with the same field values and registers are the same state. -/
theorem ext_reg {s t : State} (hpc : t.pc = s.pc) (hreg : ∀ r : Reg, t.reg r = s.reg r) (hhi : t.hi = s.hi)
    (hlo : t.lo = s.lo) (hmem : t.mem = s.mem) (hwrites : t.writes = s.writes)
    (hrun : t.run = s.run) (hout : t.out = s.out) (hcfg : t.cfg = s.cfg) :
    t = s := by
  have hregs : t.regs = s.regs := Vector.ext fun i hi => hreg ⟨i, hi⟩
  cases s; cases t; simp_all

end Sys2Proof.Machine.State
end

