-- ==== Sys2Proof/Laws/Memory.lean ====
section
/-! SUPPORT. The laws of the reference memory: read after write, and the canonical form. -/

namespace Sys2Proof.Machine.Memory

@[simp] theorem find_nil (a : Nat) : Memory.find a [] = unlisted := rfl

theorem find_cons (a : Nat) (c : Host.Cell) (m : Memory) :
    Memory.find a (c :: m) = if c.1 = a then c.2 else Memory.find a m := rfl

theorem find_dropKey_same (a : Nat) (m : Memory) : Memory.find a (m.dropKey a) = unlisted := by
  induction m with
  | nil => rfl
  | cons c m ih =>
    by_cases h : c.1 = a
    · simpa [dropKey, h] using ih
    · simpa [dropKey, h, find_cons] using ih

theorem find_dropKey_of_ne {a b : Nat} (h : b ≠ a) (m : Memory) : Memory.find b (m.dropKey a) = Memory.find b m := by
  induction m with
  | nil => rfl
  | cons c m ih =>
    by_cases hc : c.1 = a
    · have : ¬ c.1 = b := fun e => h (e.symm.trans hc)
      simpa [dropKey, hc, find_cons, Ne.symm h] using ih
    · by_cases hb : c.1 = b
      · simp [dropKey, find_cons, hb, h]
      · simpa [dropKey, hc, find_cons, hb] using ih

theorem find_insertKey_same (a : Nat) (v : Byte) (m : Memory) (h : ∀ c ∈ m, c.1 ≠ a) :
    Memory.find a (insertKey a v m) = v := by
  induction m with
  | nil => simp [insertKey, find_cons]
  | cons c m ih =>
    have hc := h c (by simp)
    by_cases hlt : c.1 < a
    · simp [insertKey, hlt, find_cons, hc, ih fun d hd => h d (by simp [hd])]
    · simp [insertKey, hlt, find_cons]

theorem find_insertKey_of_ne {a b : Nat} (h : b ≠ a) (v : Byte) (m : Memory) :
    Memory.find b (insertKey a v m) = Memory.find b m := by
  induction m with
  | nil => simp [insertKey, find_cons, Ne.symm h]
  | cons c m ih =>
    by_cases hlt : c.1 < a
    · simp [insertKey, hlt, find_cons, ih]
    · simp [insertKey, hlt, find_cons, Ne.symm h]

theorem ne_of_mem_dropKey {a : Nat} {m : Memory} {c : Host.Cell} (h : c ∈ m.dropKey a) : c.1 ≠ a := by
  simpa [dropKey] using (List.mem_filter.mp h).2

/-- Read after write by number: the written address gives the written byte, every other address its old one. -/
theorem find_put (a b : Nat) (v : Byte) (m : Memory) :
    Memory.find b (m.put a v) = if b = a then v else Memory.find b m := by
  by_cases hb : b = a
  · subst hb
    by_cases hv : v = unlisted
    · simp [put, hv, find_dropKey_same]
    · simp [put, hv, find_insertKey_same _ _ _ fun c hc => ne_of_mem_dropKey hc]
  · by_cases hv : v = unlisted
    · simp [put, hv, hb, find_dropKey_of_ne hb]
    · simp [put, hv, hb, find_insertKey_of_ne hb, find_dropKey_of_ne hb]

/-- Read after write of one byte (20_memory.md R45). -/
theorem readByte_writeByte (m : Memory) (a b : Word) (v : Byte) :
    (m.writeByte a v).readByte b = if b = a then v else m.readByte b := by
  simp [readByte, writeByte, find_put, ← BitVec.toNat_inj]

@[simp] theorem readByte_writeByte_same (m : Memory) (a : Word) (v : Byte) : (m.writeByte a v).readByte a = v := by
  simp [readByte_writeByte]

theorem readByte_writeByte_of_ne (m : Memory) {a b : Word} (v : Byte) (h : b ≠ a) :
    (m.writeByte a v).readByte b = m.readByte b := by simp [readByte_writeByte, h]

/-- Read after write of one word, byte by byte (R45). -/
theorem readByte_writeWord (m : Memory) (a v b : Word) :
    (m.writeWord a v).readByte b =
      if b = a + 3#32 then byteOfWord v 3 else if b = a + 2#32 then byteOfWord v 2
      else if b = a + 1#32 then byteOfWord v 1 else if b = a then byteOfWord v 0 else m.readByte b := by
  simp [writeWord, readByte_writeByte]

@[simp] theorem readByte_writeWord_0 (m : Memory) (a v : Word) : (m.writeWord a v).readByte a = byteOfWord v 0 := by
  rw [readByte_writeWord, if_neg (by bv_omega), if_neg (by bv_omega), if_neg (by bv_omega), if_pos rfl]

@[simp] theorem readByte_writeWord_1 (m : Memory) (a v : Word) :
    (m.writeWord a v).readByte (a + 1#32) = byteOfWord v 1 := by
  rw [readByte_writeWord, if_neg (by bv_omega), if_neg (by bv_omega), if_pos rfl]

@[simp] theorem readByte_writeWord_2 (m : Memory) (a v : Word) :
    (m.writeWord a v).readByte (a + 2#32) = byteOfWord v 2 := by
  rw [readByte_writeWord, if_neg (by bv_omega), if_pos rfl]

@[simp] theorem readByte_writeWord_3 (m : Memory) (a v : Word) :
    (m.writeWord a v).readByte (a + 3#32) = byteOfWord v 3 := by
  rw [readByte_writeWord, if_pos rfl]

/-- A word store leaves every byte outside its four alone. -/
theorem readByte_writeWord_outside (m : Memory) (a v b : Word)
    (h : ∀ k, k < 4 → b ≠ a + BitVec.ofNat 32 k) : (m.writeWord a v).readByte b = m.readByte b := by
  have h0 : b ≠ a := by simpa using h 0 (by omega)
  have h1 : b ≠ a + 1#32 := by simpa using h 1 (by omega)
  have h2 : b ≠ a + 2#32 := by simpa using h 2 (by omega)
  have h3 : b ≠ a + 3#32 := by simpa using h 3 (by omega)
  simp [readByte_writeWord, h0, h1, h2, h3]

/-! ### The canonical form -/

@[simp] theorem wf_nil : Memory.wf [] := by simp [wf]

theorem wf_dropKey {m : Memory} (h : m.wf) (a : Nat) : (m.dropKey a).wf :=
  ⟨h.1.sublist List.filter_sublist, fun c hc => h.2 c (List.mem_filter.mp hc).1⟩

theorem mem_insertKey {a : Nat} {v : Byte} {m : Memory} {c : Host.Cell} (h : c ∈ insertKey a v m) :
    c = (a, v) ∨ c ∈ m := by
  induction m with
  | nil => simpa [insertKey] using h
  | cons d m ih =>
    by_cases hlt : d.1 < a
    · simp only [insertKey, hlt, if_true, List.mem_cons] at h
      rcases h with rfl | h
      · simp
      · rcases ih h with rfl | h <;> simp [*]
    · simpa [insertKey, hlt] using h

theorem wf_insertKey {a : Nat} {v : Byte} {m : Memory} (h : m.wf) (ha : a < 2 ^ 32) (hv : v ≠ unlisted)
    (hne : ∀ c ∈ m, c.1 ≠ a) : Memory.wf (insertKey a v m) := by
  refine ⟨?_, fun c hc => ?_⟩
  · have hp := h.1
    clear h
    induction m with
    | nil => simp [insertKey]
    | cons d m ih =>
      obtain ⟨hd, hm⟩ := List.pairwise_cons.mp hp
      by_cases hlt : d.1 < a
      · simp only [insertKey, hlt, if_true, List.pairwise_cons]
        refine ⟨fun c hc => ?_, ih (fun c hc => hne c (by simp [hc])) hm⟩
        rcases mem_insertKey hc with rfl | hc
        · exact hlt
        · exact hd c hc
      · have hda : a < d.1 := by have := hne d (by simp); omega
        simp only [insertKey, hlt, if_false, List.pairwise_cons]
        refine ⟨fun c hc => ?_, hd, hm⟩
        rcases List.mem_cons.mp hc with rfl | hc
        · exact hda
        · exact Nat.lt_trans hda (hd c hc)
  · rcases mem_insertKey hc with rfl | hc
    · exact ⟨ha, hv⟩
    · exact h.2 c hc

theorem wf_put {m : Memory} (h : m.wf) {a : Nat} (ha : a < 2 ^ 32) (v : Byte) : (m.put a v).wf := by
  by_cases hv : v = unlisted
  · simpa [put, hv] using wf_dropKey h a
  · simpa [put, hv] using wf_insertKey (wf_dropKey h a) ha hv fun c hc => ne_of_mem_dropKey hc

/-- A byte write keeps the canonical form. -/
theorem wf_writeByte {m : Memory} (h : m.wf) (a : Word) (v : Byte) : (m.writeByte a v).wf := wf_put h a.isLt v

/-- A word write keeps the canonical form. -/
theorem wf_writeWord {m : Memory} (h : m.wf) (a v : Word) : (m.writeWord a v).wf :=
  wf_writeByte (wf_writeByte (wf_writeByte (wf_writeByte h _ _) _ _) _ _) _ _

end Sys2Proof.Machine.Memory
end

