-- ==== Sys2Proof/Laws/Decode.lean ====
section
/-! SUPPORT. The decoder's and encoder's laws: bits of a word built from fields or bytes, and the fields cut out of an
encoded word. -/

namespace Sys2Proof

@[simp] theorem indexOfField_fieldOfIndex (r : Fin 32) : indexOfField (fieldOfIndex r) = r := rfl
@[simp] theorem fieldOfIndex_indexOfField (f : BitVec 5) : fieldOfIndex (indexOfField f) = f := rfl

@[simp] theorem fieldOfIndex_inj {a b : Fin 32} : fieldOfIndex a = fieldOfIndex b ↔ a = b :=
  ⟨fun h => by rw [← indexOfField_fieldOfIndex a, h, indexOfField_fieldOfIndex], fun h => h ▸ rfl⟩

@[simp] theorem indexOfField_inj {a b : BitVec 5} : indexOfField a = indexOfField b ↔ a = b :=
  ⟨fun h => by rw [← fieldOfIndex_indexOfField a, h, fieldOfIndex_indexOfField], fun h => h ▸ rfl⟩

/-! ### Bytes of a word (20_memory.md R46) -/

theorem getLsbD_wordOfBytes (b0 b1 b2 b3 : Byte) (i : Nat) :
    (wordOfBytes b0 b1 b2 b3).getLsbD i =
      if i < 8 then b0.getLsbD i else if i < 16 then b1.getLsbD (i - 8)
      else if i < 24 then b2.getLsbD (i - 16) else b3.getLsbD (i - 24) := by
  show BitVec.getLsbD (w := 8 + 8 + 8 + 8) (b3 ++ b2 ++ b1 ++ b0) i = _
  simp only [BitVec.getLsbD_append]
  split_ifs <;> first | omega | simp [Nat.sub_sub]

/-- A slice read at the offset of a bit is that bit. -/
theorem getLsbD_slice {n a i k : Nat} (x : BitVec n) (h1 : a ≤ i) (h2 : i < a + k) :
    (x.extractLsb' a k).getLsbD (i - a) = x.getLsbD i := by
  have e : a + (i - a) = i := by omega
  have l : i - a < k := by omega
  simp [e, l]

/-- The four bytes of a word, put together again, are the word. -/
@[simp] theorem wordOfBytes_byteOfWord (w : Word) :
    wordOfBytes (byteOfWord w 0) (byteOfWord w 1) (byteOfWord w 2) (byteOfWord w 3) = w := by
  apply BitVec.eq_of_getLsbD_eq
  intro i hi
  rw [getLsbD_wordOfBytes]
  split_ifs
  · exact getLsbD_slice (a := 0) w (by omega) (by omega)
  · exact getLsbD_slice (a := 8) w (by omega) (by omega)
  · exact getLsbD_slice (a := 16) w (by omega) (by omega)
  · exact getLsbD_slice (a := 24) w (by omega) (by omega)

@[simp] theorem byteOfWord_wordOfBytes_0 (b0 b1 b2 b3 : Byte) : byteOfWord (wordOfBytes b0 b1 b2 b3) 0 = b0 := by
  apply BitVec.eq_of_getLsbD_eq
  intro i hi
  simp only [getLsbD_wordOfBytes, byteOfWord, BitVec.getLsbD_extractLsb']
  split_ifs <;> first | omega | (simp [hi])

@[simp] theorem byteOfWord_wordOfBytes_1 (b0 b1 b2 b3 : Byte) : byteOfWord (wordOfBytes b0 b1 b2 b3) 1 = b1 := by
  apply BitVec.eq_of_getLsbD_eq
  intro i hi
  simp only [getLsbD_wordOfBytes, byteOfWord, BitVec.getLsbD_extractLsb']
  split_ifs <;> first | omega | (simp [hi])

@[simp] theorem byteOfWord_wordOfBytes_2 (b0 b1 b2 b3 : Byte) : byteOfWord (wordOfBytes b0 b1 b2 b3) 2 = b2 := by
  apply BitVec.eq_of_getLsbD_eq
  intro i hi
  simp only [getLsbD_wordOfBytes, byteOfWord, BitVec.getLsbD_extractLsb']
  split_ifs <;> first | omega | (simp [hi])

@[simp] theorem byteOfWord_wordOfBytes_3 (b0 b1 b2 b3 : Byte) : byteOfWord (wordOfBytes b0 b1 b2 b3) 3 = b3 := by
  apply BitVec.eq_of_getLsbD_eq
  intro i hi
  simp only [getLsbD_wordOfBytes, byteOfWord, BitVec.getLsbD_extractLsb']
  split_ifs <;> first | omega | (simp [hi])

/-! ### Bits of an encoded word (30_encoding.md R61) -/

theorem getLsbD_encodeR (rs rt rd : Reg) (shamt : Shamt) (funct : BitVec 6) (i : Nat) :
    (encodeR rs rt rd shamt funct).getLsbD i =
      if i < 6 then funct.getLsbD i else if i < 11 then (fieldOfIndex shamt).getLsbD (i - 6)
      else if i < 16 then (fieldOfIndex rd).getLsbD (i - 11) else if i < 21 then (fieldOfIndex rt).getLsbD (i - 16)
      else if i < 26 then (fieldOfIndex rs).getLsbD (i - 21) else false := by
  show BitVec.getLsbD (w := 6 + 5 + 5 + 5 + 5 + 6)
    (0x00#6 ++ fieldOfIndex rs ++ fieldOfIndex rt ++ fieldOfIndex rd ++ fieldOfIndex shamt ++ funct) i = _
  simp only [BitVec.getLsbD_append]
  split_ifs <;> first | omega | simp [Nat.sub_sub]

theorem getLsbD_encodeI (op : BitVec 6) (rs rt : Reg) (imm16 : BitVec 16) (i : Nat) :
    (encodeI op rs rt imm16).getLsbD i =
      if i < 16 then imm16.getLsbD i else if i < 21 then (fieldOfIndex rt).getLsbD (i - 16)
      else if i < 26 then (fieldOfIndex rs).getLsbD (i - 21) else op.getLsbD (i - 26) := by
  show BitVec.getLsbD (w := 6 + 5 + 5 + 16) (op ++ fieldOfIndex rs ++ fieldOfIndex rt ++ imm16) i = _
  simp only [BitVec.getLsbD_append]
  split_ifs <;> first | omega | simp [Nat.sub_sub]

theorem getLsbD_encodeJ (op : BitVec 6) (target26 : BitVec 26) (i : Nat) :
    (encodeJ op target26).getLsbD i = if i < 26 then target26.getLsbD i else op.getLsbD (i - 26) := by
  show BitVec.getLsbD (w := 6 + 26) (op ++ target26) i = _
  simp only [BitVec.getLsbD_append]

/-! ### The fields of an encoded word -/

section
variable (rs rt rd : Reg) (shamt : Shamt) (funct op : BitVec 6) (imm16 : BitVec 16) (target26 : BitVec 26)

@[simp] theorem opOf_encodeR : opOf (encodeR rs rt rd shamt funct) = 0x00#6 := by
  apply BitVec.eq_of_getLsbD_eq
  intro i hi
  have h := hi
  simp only [opOf, BitVec.getLsbD_extractLsb', getLsbD_encodeR, h, decide_true, Bool.true_and]
  split_ifs <;> first | omega | simp

@[simp] theorem rsBits_encodeR : rsBits (encodeR rs rt rd shamt funct) = fieldOfIndex rs := by
  apply BitVec.eq_of_getLsbD_eq
  intro i hi
  have h := hi
  simp only [rsBits, BitVec.getLsbD_extractLsb', getLsbD_encodeR, h, decide_true, Bool.true_and]
  split_ifs <;> first | omega | simp

@[simp] theorem rtBits_encodeR : rtBits (encodeR rs rt rd shamt funct) = fieldOfIndex rt := by
  apply BitVec.eq_of_getLsbD_eq
  intro i hi
  have h := hi
  simp only [rtBits, BitVec.getLsbD_extractLsb', getLsbD_encodeR, h, decide_true, Bool.true_and]
  split_ifs <;> first | omega | simp

@[simp] theorem rdBits_encodeR : rdBits (encodeR rs rt rd shamt funct) = fieldOfIndex rd := by
  apply BitVec.eq_of_getLsbD_eq
  intro i hi
  have h := hi
  simp only [rdBits, BitVec.getLsbD_extractLsb', getLsbD_encodeR, h, decide_true, Bool.true_and]
  split_ifs <;> first | omega | simp

@[simp] theorem shamtBits_encodeR : shamtBits (encodeR rs rt rd shamt funct) = fieldOfIndex shamt := by
  apply BitVec.eq_of_getLsbD_eq
  intro i hi
  have h := hi
  simp only [shamtBits, BitVec.getLsbD_extractLsb', getLsbD_encodeR, h, decide_true, Bool.true_and]
  split_ifs <;> first | omega | simp

@[simp] theorem functOf_encodeR : functOf (encodeR rs rt rd shamt funct) = funct := by
  apply BitVec.eq_of_getLsbD_eq
  intro i hi
  have h := hi
  simp only [functOf, BitVec.getLsbD_extractLsb', getLsbD_encodeR, h, decide_true, Bool.true_and]
  split_ifs <;> first | omega | simp

@[simp] theorem opOf_encodeI : opOf (encodeI op rs rt imm16) = op := by
  apply BitVec.eq_of_getLsbD_eq
  intro i hi
  have h := hi
  simp only [opOf, BitVec.getLsbD_extractLsb', getLsbD_encodeI, h, decide_true, Bool.true_and]
  split_ifs <;> first | omega | simp

@[simp] theorem rsBits_encodeI : rsBits (encodeI op rs rt imm16) = fieldOfIndex rs := by
  apply BitVec.eq_of_getLsbD_eq
  intro i hi
  have h := hi
  simp only [rsBits, BitVec.getLsbD_extractLsb', getLsbD_encodeI, h, decide_true, Bool.true_and]
  split_ifs <;> first | omega | simp

@[simp] theorem rtBits_encodeI : rtBits (encodeI op rs rt imm16) = fieldOfIndex rt := by
  apply BitVec.eq_of_getLsbD_eq
  intro i hi
  have h := hi
  simp only [rtBits, BitVec.getLsbD_extractLsb', getLsbD_encodeI, h, decide_true, Bool.true_and]
  split_ifs <;> first | omega | simp

@[simp] theorem imm16Of_encodeI : imm16Of (encodeI op rs rt imm16) = imm16 := by
  apply BitVec.eq_of_getLsbD_eq
  intro i hi
  have h := hi
  simp only [imm16Of, BitVec.getLsbD_extractLsb', getLsbD_encodeI, h, decide_true, Bool.true_and]
  split_ifs <;> first | omega | simp

@[simp] theorem opOf_encodeJ : opOf (encodeJ op target26) = op := by
  apply BitVec.eq_of_getLsbD_eq
  intro i hi
  have h := hi
  simp only [opOf, BitVec.getLsbD_extractLsb', getLsbD_encodeJ, h, decide_true, Bool.true_and]
  split_ifs <;> first | omega | simp

@[simp] theorem target26Of_encodeJ : target26Of (encodeJ op target26) = target26 := by
  apply BitVec.eq_of_getLsbD_eq
  intro i hi
  have h := hi
  simp only [target26Of, BitVec.getLsbD_extractLsb', getLsbD_encodeJ, h, decide_true, Bool.true_and]
  split_ifs <;> first | omega | simp

@[simp] theorem rsOf_encodeR : rsOf (encodeR rs rt rd shamt funct) = rs := by simp [rsOf]
@[simp] theorem rtOf_encodeR : rtOf (encodeR rs rt rd shamt funct) = rt := by simp [rtOf]
@[simp] theorem rdOf_encodeR : rdOf (encodeR rs rt rd shamt funct) = rd := by simp [rdOf]
@[simp] theorem shamtOf_encodeR : shamtOf (encodeR rs rt rd shamt funct) = shamt := by simp [shamtOf]
@[simp] theorem rsOf_encodeI : rsOf (encodeI op rs rt imm16) = rs := by simp [rsOf]
@[simp] theorem rtOf_encodeI : rtOf (encodeI op rs rt imm16) = rt := by simp [rtOf]

end

/-- A word is the encoding of its own fields in each of the three layouts (R61). -/
theorem encodeI_fields (w : Word) : encodeI (opOf w) (rsOf w) (rtOf w) (imm16Of w) = w := by
  apply BitVec.eq_of_getLsbD_eq
  intro i hi
  rw [getLsbD_encodeI]
  split_ifs
  · exact getLsbD_slice (a := 0) w (by omega) (by omega)
  · exact getLsbD_slice (a := 16) w (by omega) (by omega)
  · exact getLsbD_slice (a := 21) w (by omega) (by omega)
  · exact getLsbD_slice (a := 26) w (by omega) (by omega)

theorem encodeJ_fields (w : Word) : encodeJ (opOf w) (target26Of w) = w := by
  apply BitVec.eq_of_getLsbD_eq
  intro i hi
  rw [getLsbD_encodeJ]
  split_ifs
  · exact getLsbD_slice (a := 0) w (by omega) (by omega)
  · exact getLsbD_slice (a := 26) w (by omega) (by omega)

theorem encodeR_fields (w : Word) (h : opOf w = 0x00#6) :
    encodeR (rsOf w) (rtOf w) (rdOf w) (shamtOf w) (functOf w) = w := by
  apply BitVec.eq_of_getLsbD_eq
  intro i hi
  rw [getLsbD_encodeR]
  split_ifs
  · exact getLsbD_slice (a := 0) w (by omega) (by omega)
  · exact getLsbD_slice (a := 6) w (by omega) (by omega)
  · exact getLsbD_slice (a := 11) w (by omega) (by omega)
  · exact getLsbD_slice (a := 16) w (by omega) (by omega)
  · exact getLsbD_slice (a := 21) w (by omega) (by omega)
  · have e := getLsbD_slice (a := 26) (k := 6) w (show 26 ≤ i by omega) (show i < 26 + 6 by omega)
    rw [← e]
    show false = (opOf w).getLsbD (i - 26)
    simp [h]

end Sys2Proof
end

