-- ==== Sys2Proof/Laws/Ops.lean ====
section
/-! SUPPORT. One lemma per shared operation of the meanings: that it answers a next state, and all of what that state is.
Callers cite these instead of unfolding the operation. -/

namespace Sys2Proof.Machine

/-! ### The frame predicates are reflexive and see only their own field -/

@[simp] theorem keepsRegs_refl (s : State) : KeepsRegs s s := fun _ => rfl
@[simp] theorem keepsHiLo_refl (s : State) : KeepsHiLo s s := ⟨rfl, rfl⟩
@[simp] theorem keepsMemory_refl (s : State) : KeepsMemory s s := ⟨fun _ => rfl, rfl, rfl⟩
@[simp] theorem keepsRunAndConfig_refl (s : State) : KeepsRunAndConfig s s := ⟨rfl, rfl⟩
@[simp] theorem keepsPorts_refl (s : State) : KeepsPorts s s := ⟨⟨rfl, rfl⟩, rfl⟩

/-- The same parameter and the same contents read alike everywhere. -/
theorem keepsMemory_of_eq {s t : State} (hc : t.cfg = s.cfg) (hm : t.mem = s.mem) (hw : t.writes = s.writes) :
    KeepsMemory s t :=
  ⟨fun a => by simp [State.byteAt, State.readWord_congr (congrArg Config.mem hc) hm hw], hm, hw⟩

theorem keepsOtherRegs_setReg (s : State) (r : Reg) (v : Word) : KeepsOtherRegs r s (s.setReg r v) :=
  fun _ h => State.reg_setReg_of_ne s v h

/-! ### How an instruction ends -/

@[simp] theorem advance_eq (s : State) : s.advance = .next (s.setPc (s.pc + 4#32)) := rfl
@[simp] theorem jumpTo_eq (s : State) (target : Word) : s.jumpTo target = .next (s.setPc target) := rfl

theorem jumpTo_goesTo (s : State) (target : Word) : GoesTo (s.jumpTo target) s target :=
  ⟨_, rfl, rfl, by simp [KeepsRegs], by simp [KeepsHiLo], keepsMemory_of_eq rfl rfl rfl, by simp [KeepsPorts, KeepsRunAndConfig]⟩

theorem advance_goesTo (s : State) : GoesTo s.advance s (s.pc + 4#32) := jumpTo_goesTo s _

/-- A register write that then goes to a target computed beforehand. -/
theorem setReg_jumpTo_writes (s : State) (r : Reg) (v target : Word) :
    WritesRegAndGoes ((s.setReg r v).jumpTo target) s r v target :=
  ⟨_, rfl, rfl, by simp, fun q h => by simpa using State.reg_setReg_of_ne s v h, by simp [KeepsHiLo],
    keepsMemory_of_eq rfl rfl rfl, by simp [KeepsPorts, KeepsRunAndConfig]⟩

theorem writeAndAdvance_writesReg (s : State) (r : Reg) (v : Word) : WritesReg (writeAndAdvance s r v) s r v :=
  setReg_jumpTo_writes s r v (s.pc + 4#32)

theorem reportAndAdvance_reportsOnly (s : State) (d : Diag) : ReportsOnly (s.reportAndAdvance d) s d :=
  ⟨_, rfl, rfl, rfl, rfl, by simp [KeepsRegs], keepsMemory_of_eq rfl rfl rfl, by simp [KeepsRunAndConfig], rfl⟩

theorem execUnknown_reportsOnly (u : Unknown) (s : State) : ReportsOnly (execUnknown u s) s (diagOfUnknown u) :=
  reportAndAdvance_reportsOnly s _

theorem execIllegal_reportsOnly (m : Illegal) (s : State) : ReportsOnly (execIllegal m s) s (.illegalOperand m) :=
  reportAndAdvance_reportsOnly s _

/-! ### HI and LO -/

theorem writeHiLoAndAdvance_writesHiLo (s : State) (hi lo : Word) : WritesHiLo (writeHiLoAndAdvance s hi lo) s hi lo :=
  ⟨_, rfl, rfl, rfl, rfl, by simp [KeepsRegs], keepsMemory_of_eq rfl rfl rfl, by simp [KeepsPorts, KeepsRunAndConfig]⟩

theorem writeProduct_writesHiLo (s : State) (p : BitVec 64) :
    WritesHiLo (writeProduct s p) s (p.extractLsb' 32 32) (p.extractLsb' 0 32) :=
  writeHiLoAndAdvance_writesHiLo s _ _

/-- What the policy DIV0 makes of HI and LO (42_muldiv_hilo.md R133). -/
theorem divideByZero_reports (s : State) (kind : DivKind) (dividend : Word) :
    ReportsWithHiLo (divideByZero s kind dividend) s (.divideByZero kind)
      (match s.cfg.div0 with | .unchanged => s.hi | .anyValue => (Config.div0Result kind s.hi s.lo dividend).1)
      (match s.cfg.div0 with | .unchanged => s.lo | .anyValue => (Config.div0Result kind s.hi s.lo dividend).2) := by
  unfold divideByZero
  cases h : s.cfg.div0
  · exact ⟨_, rfl, rfl, rfl, rfl, by simp [KeepsRegs], keepsMemory_of_eq rfl rfl rfl, by simp [KeepsRunAndConfig], rfl⟩
  · exact ⟨_, rfl, rfl, rfl, rfl, by simp [KeepsRegs], keepsMemory_of_eq rfl rfl rfl, by simp [KeepsRunAndConfig], rfl⟩

/-! ### Branches -/

theorem branchIf_goesTo (s : State) (cond : Bool) (imm16 : BitVec 16) :
    GoesTo (branchIf s cond imm16) s (if cond then branchTarget s imm16 else s.pc + 4#32) := by
  cases cond
  · simpa [branchIf] using advance_goesTo s
  · simpa [branchIf] using jumpTo_goesTo s (branchTarget s imm16)

theorem linkAndBranchIf_writes (s : State) (cond : Bool) (imm16 : BitVec 16) :
    WritesRegAndGoes (linkAndBranchIf s cond imm16) s linkReg (s.pc + 4#32)
      (if cond then branchTarget s imm16 else s.pc + 4#32) := by
  cases cond
  · exact setReg_jumpTo_writes s linkReg _ _
  · exact setReg_jumpTo_writes s linkReg _ _

/-! ### Loads and stores -/

theorem memRead_of_fault {s : State} {a : Word} (h : s.memFaults (.read a) = true) (k : Word → State → Result) :
    s.memRead a k = .fault (.memoryCollaborator (.read a)) := by simp [State.memRead, h]

theorem memRead_of_answer {s : State} {a : Word} (h : s.memFaults (.read a) = false) (k : Word → State → Result) :
    s.memRead a k = k (s.readWord a) (s.call (.read a)) := by simp [State.memRead, h]

theorem memWrite_of_fault {s : State} {a v : Word} (h : s.memFaults (.write a v) = true) (k : State → Result) :
    s.memWrite a v k = .fault (.memoryCollaborator (.write a v)) := by simp [State.memWrite, h]

theorem memWrite_of_answer {s : State} {a v : Word} (h : s.memFaults (.write a v) = false) (k : State → Result) :
    s.memWrite a v k = k ((s.writeWord a v).call (.write a v)) := by simp [State.memWrite, h]

/-- A load whose read the collaborator answers. -/
theorem loadWith_loads (pick : Word → Word) (rt rs : Reg) (imm16 : BitVec 16) {s : State}
    (h : s.memFaults (.read (effAddr s rs imm16)) = false) :
    Loads (loadWith pick rt rs imm16 s) s rt (pick (s.readWord (effAddr s rs imm16))) (effAddr s rs imm16) := by
  rw [loadWith, memRead_of_answer h]
  exact ⟨_, rfl, rfl, by simp, fun q h => State.reg_setReg_of_ne (s.call (.read (effAddr s rs imm16))) _ h,
    by simp [KeepsHiLo], keepsMemory_of_eq rfl rfl rfl, by simp [KeepsRunAndConfig], rfl⟩

/-- The word SB writes back, slice by slice (R216). -/
theorem mergeByte_eq (w v : Word) : mergeByte w v = w.extractLsb' 8 24 ++ v.extractLsb' 0 8 := by
  apply BitVec.eq_of_getLsbD_eq
  intro i hi
  show _ = BitVec.getLsbD (w := 24 + 8) (w.extractLsb' 8 24 ++ v.extractLsb' 0 8) i
  simp only [BitVec.getLsbD_append, mergeByte, BitVec.getLsbD_or, BitVec.getLsbD_and, BitVec.getLsbD_extractLsb']
  interval_cases i <;> simp

/-- The word SH writes back, slice by slice (R217). -/
theorem mergeHalf_eq (w v : Word) : mergeHalf w v = w.extractLsb' 16 16 ++ v.extractLsb' 0 16 := by
  apply BitVec.eq_of_getLsbD_eq
  intro i hi
  show _ = BitVec.getLsbD (w := 16 + 16) (w.extractLsb' 16 16 ++ v.extractLsb' 0 16) i
  simp only [BitVec.getLsbD_append, mergeHalf, BitVec.getLsbD_or, BitVec.getLsbD_and, BitVec.getLsbD_extractLsb']
  interval_cases i <;> simp

/-- A merged store whose two calls the collaborator answers, whole: its next state written out. -/
theorem storeMerged_eq (merge : Word → Word → Word) (rt rs : Reg) (imm16 : BitVec 16) {s : State}
    (hr : s.memFaults (.read (effAddr s rs imm16)) = false)
    (hw : s.memFaults (.write (effAddr s rs imm16) (merge (s.readWord (effAddr s rs imm16)) (s.reg rt))) = false) :
    storeMerged merge rt rs imm16 s =
      .next (((((s.call (.read (effAddr s rs imm16))).writeWord (effAddr s rs imm16)
        (merge (s.readWord (effAddr s rs imm16)) (s.reg rt)))).call
        (.write (effAddr s rs imm16) (merge (s.readWord (effAddr s rs imm16)) (s.reg rt)))).setPc (s.pc + 4#32)) := by
  rw [storeMerged, memRead_of_answer hr, memWrite_of_answer (by simpa using hw)]
  rfl

/-- A merged store under any collaborator. -/
theorem storeMerged_writesWord (merge : Word → Word → Word) (rt rs : Reg) (imm16 : BitVec 16) {s : State}
    (hr : s.memFaults (.read (effAddr s rs imm16)) = false)
    (hw : s.memFaults (.write (effAddr s rs imm16) (merge (s.readWord (effAddr s rs imm16)) (s.reg rt))) = false) :
    WritesWord (storeMerged merge rt rs imm16 s) s (effAddr s rs imm16)
      (merge (s.readWord (effAddr s rs imm16)) (s.reg rt))
      [.read (effAddr s rs imm16), .write (effAddr s rs imm16) (merge (s.readWord (effAddr s rs imm16)) (s.reg rt))] := by
  rw [storeMerged_eq merge rt rs imm16 hr hw]
  exact ⟨_, rfl, rfl, keepsMemory_of_eq rfl rfl rfl, fun _ => rfl, ⟨rfl, rfl⟩, ⟨rfl, rfl⟩, by simp⟩

/-- A word store under any collaborator. -/
theorem execSw_writesWord (rt rs : Reg) (imm16 : BitVec 16) {s : State}
    (h : s.memFaults (.write (effAddr s rs imm16) (s.reg rt)) = false) :
    WritesWord (execSw rt rs imm16 s) s (effAddr s rs imm16) (s.reg rt) [.write (effAddr s rs imm16) (s.reg rt)] := by
  rw [execSw, memWrite_of_answer h]
  exact ⟨_, rfl, rfl, keepsMemory_of_eq rfl rfl rfl, fun _ => rfl, ⟨rfl, rfl⟩, ⟨rfl, rfl⟩, rfl⟩

/-! ### The fetch and the commit -/

/-- The fetch: the collaborator faults, or the dispatch is given the word at PC and the state after the fetch. -/
theorem fetch_eq (s : State) (dispatch : Word → State → Result) :
    s.fetch dispatch =
      if s.memFaults (.read s.pc) then .fault (.memoryCollaborator (.read s.pc))
      else dispatch (fetchedWord s) (afterFetch s) := rfl

@[simp] theorem readWord_afterFetch (s : State) (a : Word) : (afterFetch s).readWord a = s.readWord a := rfl
@[simp] theorem memFaults_afterFetch (s : State) (c : MemCall) : (afterFetch s).memFaults c = s.memFaults c := rfl

theorem commit_of_false {s : State} (h : s.cfg.hardwiredZero = false) : s.commit = s := by simp [State.commit, h]

theorem commit_reg (s : State) (r : Reg) :
    s.commit.reg r = if s.cfg.hardwiredZero = true ∧ r = 0 then 0#32 else s.reg r := by
  cases h : s.cfg.hardwiredZero <;> simp [State.commit, h, State.reg_setReg]

@[simp] theorem commit_pc (s : State) : s.commit.pc = s.pc := by simp [State.commit]; split <;> rfl
@[simp] theorem commit_hi (s : State) : s.commit.hi = s.hi := by simp [State.commit]; split <;> rfl
@[simp] theorem commit_lo (s : State) : s.commit.lo = s.lo := by simp [State.commit]; split <;> rfl
@[simp] theorem commit_mem (s : State) : s.commit.mem = s.mem := by simp [State.commit]; split <;> rfl
@[simp] theorem commit_writes (s : State) : s.commit.writes = s.writes := by simp [State.commit]; split <;> rfl
@[simp] theorem commit_run (s : State) : s.commit.run = s.run := by simp [State.commit]; split <;> rfl
@[simp] theorem commit_out (s : State) : s.commit.out = s.out := by simp [State.commit]; split <;> rfl
@[simp] theorem commit_cfg (s : State) : s.commit.cfg = s.cfg := by simp [State.commit]; split <;> rfl
@[simp] theorem readWord_commit (s : State) (a : Word) : s.commit.readWord a = s.readWord a :=
  State.readWord_congr (by simp) (by simp) (by simp) a

theorem keepsMemory_commit (s : State) : KeepsMemory s s.commit := keepsMemory_of_eq (by simp) (by simp) (by simp)

/-- What a step that answers a next state has done: the run flag was true, the fetch was answered, and the decoded
word's execution from the state after the fetch was committed. -/
theorem step_next_inv {s t : State} (h : step s = .next t) :
    s.run = true ∧ s.memFaults (.read s.pc) = false ∧
      ∃ u, execDecoded (decodeWord (fetchedWord s)) (afterFetch s) = .next u ∧ t = u.commit := by
  cases hr : s.run
  · simp [step, hr] at h
  · cases hf : s.memFaults (.read s.pc)
    · simp only [step, hr, hf, if_true, fetch_eq, Bool.false_eq_true, if_false] at h
      cases he : execDecoded (decodeWord (fetchedWord s)) (afterFetch s) with
      | next u => rw [he] at h; exact ⟨rfl, rfl, u, rfl, by simpa [commitResult] using h.symm⟩
      | fault f => rw [he] at h; simp [commitResult] at h
      | refused r => rw [he] at h; simp [commitResult] at h
    · simp [step, hr, hf, fetch_eq, commitResult] at h

/-- A step with the run flag true whose fetch is answered, from what the decoded word's execution answers. -/
theorem step_eq_of_fetch {s : State} (hr : s.run = true) (hf : s.memFaults (.read s.pc) = false) :
    step s = commitResult (execDecoded (decodeWord (fetchedWord s)) (afterFetch s)) := by simp [step, hr, hf, fetch_eq]

theorem step_of_exec {s u : State} (hr : s.run = true) (hf : s.memFaults (.read s.pc) = false)
    (h : execDecoded (decodeWord (fetchedWord s)) (afterFetch s) = .next u) : step s = .next u.commit := by
  simp [step_eq_of_fetch hr hf, h, commitResult]

/-- A step whose fetch the collaborator faults on. -/
theorem step_of_fetch_fault {s : State} (hr : s.run = true) (hf : s.memFaults (.read s.pc) = true) :
    step s = .fault (.memoryCollaborator (.read s.pc)) := by simp [step, hr, hf, fetch_eq, commitResult]

end Sys2Proof.Machine
end

