-- ==== Sys2Proof/Laws/Contract.lean ====
section
/-! SUPPORT. The reference memory word by word: what M1 to M3 of 20_memory.md R43 ask, on its contents. -/

namespace Sys2Proof.Machine.Memory

/-- Byte `k` of the word at `a` is the byte at `a + k` (R45). -/
theorem extractByte_readWord (m : Memory) (a : Word) (k : Nat) (h : k < 4) :
    (m.readWord a).extractLsb' (8 * k) 8 = m.readByte (a + BitVec.ofNat 32 k) := by
  show byteOfWord (m.readWord a) k = _
  interval_cases k <;> simp [readWord]

/-- M1 for a byte. -/
theorem lowByte_readWord (m : Memory) (a : Word) : (m.readWord a).extractLsb' 0 8 = m.readByte a := by
  simpa using extractByte_readWord m a 0 (by omega)

/-- M1 for a half. -/
theorem lowHalf_readWord (m : Memory) (a : Word) :
    (m.readWord a).extractLsb' 0 16 = m.readByte (a + 1#32) ++ m.readByte a := by
  apply BitVec.eq_of_getLsbD_eq
  intro i hi
  show _ = BitVec.getLsbD (w := 8 + 8) (m.readByte (a + 1#32) ++ m.readByte a) i
  rw [BitVec.getLsbD_append]
  simp only [BitVec.getLsbD_extractLsb', readWord, getLsbD_wordOfBytes]
  split_ifs <;> simp_all

/-- M3. -/
@[simp] theorem readWord_writeWord_same (m : Memory) (a v : Word) : (m.writeWord a v).readWord a = v := by
  simp [readWord]

/-- A word that keeps the bits of the word read above bit `8 * n - 1` has its upper bytes. -/
theorem byteOfWord_of_keepAbove {m : Memory} {a v : Word} (n : Nat) (hn : n ≤ 4)
    (h : v.extractLsb' (8 * n) (32 - 8 * n) = (m.readWord a).extractLsb' (8 * n) (32 - 8 * n)) (k : Nat) (hk : n ≤ k)
    (h4 : k < 4) : byteOfWord v k = m.readByte (a + BitVec.ofNat 32 k) := by
  rw [← extractByte_readWord m a k h4]
  apply BitVec.eq_of_getLsbD_eq
  intro i hi
  have hb := congrArg (fun x => x.getLsbD (8 * k - 8 * n + i)) h
  have hlt : 8 * k - 8 * n + i < 32 - 8 * n := by omega
  have hi' : 8 * n + (8 * k - 8 * n + i) = 8 * k + i := by omega
  simp only [BitVec.getLsbD_extractLsb', byteOfWord] at hb ⊢
  simpa [hlt, hi', hi] using hb

/-- M2 for a byte: a write that keeps the bits above it changes that byte alone. -/
theorem readByte_writeWord_keepAboveByte {m : Memory} {a v : Word}
    (h : v.extractLsb' 8 24 = (m.readWord a).extractLsb' 8 24) (b : Word) :
    (m.writeWord a v).readByte b = if b = a then v.extractLsb' 0 8 else m.readByte b := by
  have h1 := byteOfWord_of_keepAbove 1 (by omega) h 1 (by omega) (by omega)
  have h2 := byteOfWord_of_keepAbove 1 (by omega) h 2 (by omega) (by omega)
  have h3 := byteOfWord_of_keepAbove 1 (by omega) h 3 (by omega) (by omega)
  rw [readByte_writeWord]
  split_ifs <;> simp_all [byteOfWord]

/-- M2 for a half. -/
theorem readByte_writeWord_keepAboveHalf {m : Memory} {a v : Word}
    (h : v.extractLsb' 16 16 = (m.readWord a).extractLsb' 16 16) (b : Word) :
    (m.writeWord a v).readByte b =
      if b = a then v.extractLsb' 0 8 else if b = a + 1#32 then v.extractLsb' 8 8 else m.readByte b := by
  have h2 := byteOfWord_of_keepAbove 2 (by omega) h 2 (by omega) (by omega)
  have h3 := byteOfWord_of_keepAbove 2 (by omega) h 3 (by omega) (by omega)
  rw [readByte_writeWord]
  split_ifs <;> simp_all [byteOfWord]

end Sys2Proof.Machine.Memory
end

