-- ==== Sys2Proof/Laws/PerInstr.lean ====
section
/-! SUPPORT. Facts about every instruction as syntax, one lemma per constructor. Family Selector: the encoder writes the
op number of 30_encoding.md R74 to R76, and under op 0x00 the funct number of R75. -/

set_option Elab.async false

namespace Sys2Proof.Laws.Selector

/-- The numbers R74 to R76 give an instruction: op, and the funct of op 0x00. -/
def numbers : Instr → BitVec 6 × Option (BitVec 6)
  | .sll .. => (0x00#6, some 0x00#6)
  | .srl .. => (0x00#6, some 0x02#6)
  | .sra .. => (0x00#6, some 0x03#6)
  | .sllv .. => (0x00#6, some 0x04#6)
  | .srlv .. => (0x00#6, some 0x06#6)
  | .srav .. => (0x00#6, some 0x07#6)
  | .jr .. => (0x00#6, some 0x08#6)
  | .jalr .. => (0x00#6, some 0x09#6)
  | .mfhi .. => (0x00#6, some 0x10#6)
  | .mthi .. => (0x00#6, some 0x11#6)
  | .mflo .. => (0x00#6, some 0x12#6)
  | .mtlo .. => (0x00#6, some 0x13#6)
  | .mult .. => (0x00#6, some 0x18#6)
  | .multu .. => (0x00#6, some 0x19#6)
  | .div .. => (0x00#6, some 0x1a#6)
  | .divu .. => (0x00#6, some 0x1b#6)
  | .add .. => (0x00#6, some 0x20#6)
  | .addu .. => (0x00#6, some 0x21#6)
  | .sub .. => (0x00#6, some 0x22#6)
  | .subu .. => (0x00#6, some 0x23#6)
  | .and .. => (0x00#6, some 0x24#6)
  | .or .. => (0x00#6, some 0x25#6)
  | .xor .. => (0x00#6, some 0x26#6)
  | .nor .. => (0x00#6, some 0x27#6)
  | .slt .. => (0x00#6, some 0x2a#6)
  | .sltu .. => (0x00#6, some 0x2b#6)
  | .syscall => (0x00#6, some 0x0c#6)
  | .addi .. => (0x08#6, none)
  | .addiu .. => (0x09#6, none)
  | .andi .. => (0x0c#6, none)
  | .ori .. => (0x0d#6, none)
  | .xori .. => (0x0e#6, none)
  | .lui .. => (0x0f#6, none)
  | .beq .. => (0x04#6, none)
  | .bne .. => (0x05#6, none)
  | .blez .. => (0x06#6, none)
  | .bgtz .. => (0x07#6, none)
  | .bltz .. => (0x01#6, none)
  | .bgez .. => (0x01#6, none)
  | .bltzal .. => (0x01#6, none)
  | .bgezal .. => (0x01#6, none)
  | .j .. => (0x02#6, none)
  | .jal .. => (0x03#6, none)
  | .lb .. => (0x20#6, none)
  | .lh .. => (0x21#6, none)
  | .lw .. => (0x23#6, none)
  | .lbu .. => (0x24#6, none)
  | .lhu .. => (0x25#6, none)
  | .sb .. => (0x28#6, none)
  | .sh .. => (0x29#6, none)
  | .sw .. => (0x2b#6, none)

/-- The encoder writes the instruction's numbers. -/
def Statement (i : Instr) : Prop :=
  opOf (encode i) = (numbers i).1 ∧ ∀ f, (numbers i).2 = some f → functOf (encode i) = f

theorem sll (rd rt : Reg) (shamt : Shamt) : Statement (.sll rd rt shamt) := by simp [Statement, numbers, encode]
theorem srl (rd rt : Reg) (shamt : Shamt) : Statement (.srl rd rt shamt) := by simp [Statement, numbers, encode]
theorem sra (rd rt : Reg) (shamt : Shamt) : Statement (.sra rd rt shamt) := by simp [Statement, numbers, encode]
theorem sllv (rd rt rs : Reg) : Statement (.sllv rd rt rs) := by simp [Statement, numbers, encode]
theorem srlv (rd rt rs : Reg) : Statement (.srlv rd rt rs) := by simp [Statement, numbers, encode]
theorem srav (rd rt rs : Reg) : Statement (.srav rd rt rs) := by simp [Statement, numbers, encode]
theorem jr (rs : Reg) : Statement (.jr rs) := by simp [Statement, numbers, encode]
theorem jalr (rd rs : Reg) : Statement (.jalr rd rs) := by simp [Statement, numbers, encode]
theorem mfhi (rd : Reg) : Statement (.mfhi rd) := by simp [Statement, numbers, encode]
theorem mthi (rs : Reg) : Statement (.mthi rs) := by simp [Statement, numbers, encode]
theorem mflo (rd : Reg) : Statement (.mflo rd) := by simp [Statement, numbers, encode]
theorem mtlo (rs : Reg) : Statement (.mtlo rs) := by simp [Statement, numbers, encode]
theorem mult (rs rt : Reg) : Statement (.mult rs rt) := by simp [Statement, numbers, encode]
theorem multu (rs rt : Reg) : Statement (.multu rs rt) := by simp [Statement, numbers, encode]
theorem div (rs rt : Reg) : Statement (.div rs rt) := by simp [Statement, numbers, encode]
theorem divu (rs rt : Reg) : Statement (.divu rs rt) := by simp [Statement, numbers, encode]
theorem add (rd rs rt : Reg) : Statement (.add rd rs rt) := by simp [Statement, numbers, encode]
theorem addu (rd rs rt : Reg) : Statement (.addu rd rs rt) := by simp [Statement, numbers, encode]
theorem sub (rd rs rt : Reg) : Statement (.sub rd rs rt) := by simp [Statement, numbers, encode]
theorem subu (rd rs rt : Reg) : Statement (.subu rd rs rt) := by simp [Statement, numbers, encode]
theorem and (rd rs rt : Reg) : Statement (.and rd rs rt) := by simp [Statement, numbers, encode]
theorem or (rd rs rt : Reg) : Statement (.or rd rs rt) := by simp [Statement, numbers, encode]
theorem xor (rd rs rt : Reg) : Statement (.xor rd rs rt) := by simp [Statement, numbers, encode]
theorem nor (rd rs rt : Reg) : Statement (.nor rd rs rt) := by simp [Statement, numbers, encode]
theorem slt (rd rs rt : Reg) : Statement (.slt rd rs rt) := by simp [Statement, numbers, encode]
theorem sltu (rd rs rt : Reg) : Statement (.sltu rd rs rt) := by simp [Statement, numbers, encode]
theorem syscall : Statement (.syscall) := by simp [Statement, numbers, encode]
theorem addi (rt rs : Reg) (imm16 : BitVec 16) : Statement (.addi rt rs imm16) := by simp [Statement, numbers, encode]
theorem addiu (rt rs : Reg) (imm16 : BitVec 16) : Statement (.addiu rt rs imm16) := by simp [Statement, numbers, encode]
theorem andi (rt rs : Reg) (imm16 : BitVec 16) : Statement (.andi rt rs imm16) := by simp [Statement, numbers, encode]
theorem ori (rt rs : Reg) (imm16 : BitVec 16) : Statement (.ori rt rs imm16) := by simp [Statement, numbers, encode]
theorem xori (rt rs : Reg) (imm16 : BitVec 16) : Statement (.xori rt rs imm16) := by simp [Statement, numbers, encode]
theorem lui (rt rs : Reg) (imm16 : BitVec 16) : Statement (.lui rt rs imm16) := by simp [Statement, numbers, encode]
theorem beq (rs rt : Reg) (imm16 : BitVec 16) : Statement (.beq rs rt imm16) := by simp [Statement, numbers, encode]
theorem bne (rs rt : Reg) (imm16 : BitVec 16) : Statement (.bne rs rt imm16) := by simp [Statement, numbers, encode]
theorem blez (rs rt : Reg) (imm16 : BitVec 16) : Statement (.blez rs rt imm16) := by simp [Statement, numbers, encode]
theorem bgtz (rs rt : Reg) (imm16 : BitVec 16) : Statement (.bgtz rs rt imm16) := by simp [Statement, numbers, encode]
theorem bltz (rs : Reg) (imm16 : BitVec 16) : Statement (.bltz rs imm16) := by simp [Statement, numbers, encode]
theorem bgez (rs : Reg) (imm16 : BitVec 16) : Statement (.bgez rs imm16) := by simp [Statement, numbers, encode]
theorem bltzal (rs : Reg) (imm16 : BitVec 16) : Statement (.bltzal rs imm16) := by simp [Statement, numbers, encode]
theorem bgezal (rs : Reg) (imm16 : BitVec 16) : Statement (.bgezal rs imm16) := by simp [Statement, numbers, encode]
theorem j (target26 : BitVec 26) : Statement (.j target26) := by simp [Statement, numbers, encode]
theorem jal (target26 : BitVec 26) : Statement (.jal target26) := by simp [Statement, numbers, encode]
theorem lb (rt rs : Reg) (imm16 : BitVec 16) : Statement (.lb rt rs imm16) := by simp [Statement, numbers, encode]
theorem lh (rt rs : Reg) (imm16 : BitVec 16) : Statement (.lh rt rs imm16) := by simp [Statement, numbers, encode]
theorem lw (rt rs : Reg) (imm16 : BitVec 16) : Statement (.lw rt rs imm16) := by simp [Statement, numbers, encode]
theorem lbu (rt rs : Reg) (imm16 : BitVec 16) : Statement (.lbu rt rs imm16) := by simp [Statement, numbers, encode]
theorem lhu (rt rs : Reg) (imm16 : BitVec 16) : Statement (.lhu rt rs imm16) := by simp [Statement, numbers, encode]
theorem sb (rt rs : Reg) (imm16 : BitVec 16) : Statement (.sb rt rs imm16) := by simp [Statement, numbers, encode]
theorem sh (rt rs : Reg) (imm16 : BitVec 16) : Statement (.sh rt rs imm16) := by simp [Statement, numbers, encode]
theorem sw (rt rs : Reg) (imm16 : BitVec 16) : Statement (.sw rt rs imm16) := by simp [Statement, numbers, encode]

end Sys2Proof.Laws.Selector
end

