-- ==== Sys2Proof/Tests/Slice0.lean ====
section
/-! SUPPORT. The model's own tests: decoding of words written out from opcode_table.json's encodings, single steps with
the results of spec/95_test_vectors.md (the vector's id stands above each), the well-formedness checks, and a witness for
the hypotheses of each statement of Certificates/Slice0/Obligations.lean that has any. -/

set_option Elab.async false

namespace Sys2Proof.Tests

open Sys2Proof Sys2Proof.Machine

/-! ### Decoding: each row of the table, its ignored bits all 0 or all 1 -/

theorem test_decode_sll : decodeTableWord 32 0b00000000000010101110110101000000 = some (.sll 29 10 21) := by decide
theorem test_decode_srl : decodeTableWord 32 0b00000011111010101110110101000010 = some (.srl 29 10 21) := by decide
theorem test_decode_sra : decodeTableWord 32 0b00000000000010101110110101000011 = some (.sra 29 10 21) := by decide
theorem test_decode_sllv : decodeTableWord 32 0b00000010001010101110111111000100 = some (.sllv 29 10 17) := by decide
theorem test_decode_srlv : decodeTableWord 32 0b00000010001010101110100000000110 = some (.srlv 29 10 17) := by decide
theorem test_decode_srav : decodeTableWord 32 0b00000010001010101110111111000111 = some (.srav 29 10 17) := by decide
theorem test_decode_jr : decodeTableWord 32 0b00000010001000000000000000001000 = some (.jr 17) := by decide
theorem test_decode_jalr : decodeTableWord 32 0b00000010001111111110111111001001 = some (.jalr 29 17) := by decide
theorem test_decode_mfhi : decodeTableWord 32 0b00000000000000001110100000010000 = some (.mfhi 29) := by decide
theorem test_decode_mthi : decodeTableWord 32 0b00000010001111111111111111010001 = some (.mthi 17) := by decide
theorem test_decode_mflo : decodeTableWord 32 0b00000000000000001110100000010010 = some (.mflo 29) := by decide
theorem test_decode_mtlo : decodeTableWord 32 0b00000010001111111111111111010011 = some (.mtlo 17) := by decide
theorem test_decode_mult : decodeTableWord 32 0b00000010001010100000000000011000 = some (.mult 17 10) := by decide
theorem test_decode_multu : decodeTableWord 32 0b00000010001010101111111111011001 = some (.multu 17 10) := by decide
theorem test_decode_div : decodeTableWord 32 0b00000010001010100000000000011010 = some (.div 17 10) := by decide
theorem test_decode_divu : decodeTableWord 32 0b00000010001010101111111111011011 = some (.divu 17 10) := by decide
theorem test_decode_add : decodeTableWord 32 0b00000010001010101110100000100000 = some (.add 29 17 10) := by decide
theorem test_decode_addu : decodeTableWord 32 0b00000010001010101110111111100001 = some (.addu 29 17 10) := by decide
theorem test_decode_sub : decodeTableWord 32 0b00000010001010101110100000100010 = some (.sub 29 17 10) := by decide
theorem test_decode_subu : decodeTableWord 32 0b00000010001010101110111111100011 = some (.subu 29 17 10) := by decide
theorem test_decode_and : decodeTableWord 32 0b00000010001010101110100000100100 = some (.and 29 17 10) := by decide
theorem test_decode_or : decodeTableWord 32 0b00000010001010101110111111100101 = some (.or 29 17 10) := by decide
theorem test_decode_xor : decodeTableWord 32 0b00000010001010101110100000100110 = some (.xor 29 17 10) := by decide
theorem test_decode_nor : decodeTableWord 32 0b00000010001010101110111111100111 = some (.nor 29 17 10) := by decide
theorem test_decode_slt : decodeTableWord 32 0b00000010001010101110100000101010 = some (.slt 29 17 10) := by decide
theorem test_decode_sltu : decodeTableWord 32 0b00000010001010101110111111101011 = some (.sltu 29 17 10) := by decide
theorem test_decode_syscall : decodeTableWord 32 0b00000000000000000000000000001100 = some (.syscall) := by decide
theorem test_decode_addi : decodeTableWord 32 0b00100010001010101000101000110101 = some (.addi 10 17 0x8a35#16) := by decide
theorem test_decode_addiu : decodeTableWord 32 0b00100110001010101000101000110101 = some (.addiu 10 17 0x8a35#16) := by decide
theorem test_decode_andi : decodeTableWord 32 0b00110010001010101000101000110101 = some (.andi 10 17 0x8a35#16) := by decide
theorem test_decode_ori : decodeTableWord 32 0b00110110001010101000101000110101 = some (.ori 10 17 0x8a35#16) := by decide
theorem test_decode_xori : decodeTableWord 32 0b00111010001010101000101000110101 = some (.xori 10 17 0x8a35#16) := by decide
theorem test_decode_lui : decodeTableWord 32 0b00111100000010101000101000110101 = some (.lui 10 0 0x8a35#16) := by decide
theorem test_decode_beq : decodeTableWord 32 0b00010010001010101000101000110101 = some (.beq 17 10 0x8a35#16) := by decide
theorem test_decode_bne : decodeTableWord 32 0b00010110001010101000101000110101 = some (.bne 17 10 0x8a35#16) := by decide
theorem test_decode_blez : decodeTableWord 32 0b00011010001000001000101000110101 = some (.blez 17 0 0x8a35#16) := by decide
theorem test_decode_bgtz : decodeTableWord 32 0b00011110001000001000101000110101 = some (.bgtz 17 0 0x8a35#16) := by decide
theorem test_decode_bltz : decodeTableWord 32 0b00000110001000001000101000110101 = some (.bltz 17 0x8a35#16) := by decide
theorem test_decode_bgez : decodeTableWord 32 0b00000110001000011000101000110101 = some (.bgez 17 0x8a35#16) := by decide
theorem test_decode_bltzal : decodeTableWord 32 0b00000110001100001000101000110101 = some (.bltzal 17 0x8a35#16) := by decide
theorem test_decode_bgezal : decodeTableWord 32 0b00000110001100011000101000110101 = some (.bgezal 17 0x8a35#16) := by decide
theorem test_decode_j : decodeTableWord 32 0b00001010101101011100001111010111 = some (.j 0x2b5c3d7#26) := by decide
theorem test_decode_jal : decodeTableWord 32 0b00001110101101011100001111010111 = some (.jal 0x2b5c3d7#26) := by decide
theorem test_decode_lb : decodeTableWord 32 0b10000010001010101000101000110101 = some (.lb 10 17 0x8a35#16) := by decide
theorem test_decode_lh : decodeTableWord 32 0b10000110001010101000101000110101 = some (.lh 10 17 0x8a35#16) := by decide
theorem test_decode_lw : decodeTableWord 32 0b10001110001010101000101000110101 = some (.lw 10 17 0x8a35#16) := by decide
theorem test_decode_lbu : decodeTableWord 32 0b10010010001010101000101000110101 = some (.lbu 10 17 0x8a35#16) := by decide
theorem test_decode_lhu : decodeTableWord 32 0b10010110001010101000101000110101 = some (.lhu 10 17 0x8a35#16) := by decide
theorem test_decode_sb : decodeTableWord 32 0b10100010001010101000101000110101 = some (.sb 10 17 0x8a35#16) := by decide
theorem test_decode_sh : decodeTableWord 32 0b10100110001010101000101000110101 = some (.sh 10 17 0x8a35#16) := by decide
theorem test_decode_sw : decodeTableWord 32 0b10101110001010101000101000110101 = some (.sw 10 17 0x8a35#16) := by decide

/-! ### Single steps -/

/-- The start state of 95_test_vectors.md with these registers set. -/
def withRegs (l : List (Reg × Word)) : State := l.foldl (fun s p => s.setReg p.1 p.2) State.reset

/-- A state with these words stored. -/
def withWords (l : List (Word × Word)) (s : State) : State :=
  l.foldl (fun s p => s.writeWord p.1 p.2) s

/-- What a result's next state shows. -/
def seen {α : Type} (f : State → α) : Result → Option α
  | .next t => some (f t)
  | .fault _ => none
  | .refused _ => none

/-- What the step that fetches this word shows. -/
def after {α : Type} (f : State → α) (w : Nat) (s : State) : Option α := seen f (step (s.withFetchWord 32 w))

/-- V-ALU-1. -/
theorem test_sll_alu_1 :
    after (fun t => (t.reg 3, t.pc)) 0x00021900 (withRegs [(2, 0x80000001#32)]) =
      some (0x00000010#32, 0x00400004#32) := by decide
/-- V-ALU-5. -/
theorem test_srl_alu_5 :
    after (fun t => (t.reg 3, t.pc)) 0x00021fc2 (withRegs [(2, 0x80000000#32)]) =
      some (0x00000001#32, 0x00400004#32) := by decide
/-- V-ALU-6. -/
theorem test_sra_alu_6 :
    after (fun t => (t.reg 3, t.pc)) 0x00021903 (withRegs [(2, 0x80000010#32)]) =
      some (0xf8000001#32, 0x00400004#32) := by decide
/-- V-ALU-9. -/
theorem test_sllv_alu_9 :
    after (fun t => (t.reg 3, t.pc)) 0x00821804 (withRegs [(2, 0x00000001#32), (4, 0x00000023#32)]) =
      some (0x00000008#32, 0x00400004#32) := by decide
/-- V-ALU-11. -/
theorem test_srlv_alu_11 :
    after (fun t => (t.reg 3, t.pc)) 0x00821806 (withRegs [(2, 0x80000000#32), (4, 0x0000003f#32)]) =
      some (0x00000001#32, 0x00400004#32) := by decide
/-- V-ALU-12. -/
theorem test_srav_alu_12 :
    after (fun t => (t.reg 3, t.pc)) 0x00821807 (withRegs [(2, 0x80000000#32), (4, 0x00000021#32)]) =
      some (0xc0000000#32, 0x00400004#32) := by decide
/-- V-ALU-14. -/
theorem test_add_alu_14 :
    after (fun t => (t.reg 3, t.pc)) 0x00221820 (withRegs [(1, 0xffffffff#32), (2, 0x00000001#32)]) =
      some (0x00000000#32, 0x00400004#32) := by decide
/-- V-ALU-17. -/
theorem test_sub_alu_17 :
    after (fun t => (t.reg 3, t.pc)) 0x00221822 (withRegs [(1, 0x00000000#32), (2, 0x00000001#32)]) =
      some (0xffffffff#32, 0x00400004#32) := by decide
/-- V-ALU-19. -/
theorem test_subu_alu_19 :
    after (fun t => (t.reg 3, t.pc)) 0x00211823 (withRegs [(1, 0x12345678#32)]) =
      some (0x00000000#32, 0x00400004#32) := by decide
/-- V-ALU-20. -/
theorem test_and_alu_20 :
    after (fun t => (t.reg 3, t.pc)) 0x00221824 (withRegs [(1, 0xff00ff00#32), (2, 0x0ff00ff0#32)]) =
      some (0x0f000f00#32, 0x00400004#32) := by decide
/-- V-ALU-21. -/
theorem test_or_alu_21 :
    after (fun t => (t.reg 3, t.pc)) 0x00221825 (withRegs [(1, 0xff00ff00#32), (2, 0x0ff00ff0#32)]) =
      some (0xfff0fff0#32, 0x00400004#32) := by decide
/-- V-ALU-22. -/
theorem test_xor_alu_22 :
    after (fun t => (t.reg 3, t.pc)) 0x00221826 (withRegs [(1, 0xff00ff00#32), (2, 0x0ff00ff0#32)]) =
      some (0xf0f0f0f0#32, 0x00400004#32) := by decide
/-- V-ALU-23. -/
theorem test_nor_alu_23 :
    after (fun t => (t.reg 3, t.pc)) 0x00221827 (withRegs [(1, 0xff00ff00#32), (2, 0x0ff00ff0#32)]) =
      some (0x000f000f#32, 0x00400004#32) := by decide
/-- V-ALU-25. -/
theorem test_slt_alu_25 :
    after (fun t => (t.reg 3, t.pc)) 0x0022182a (withRegs [(1, 0xffffffff#32), (2, 0x00000001#32)]) =
      some (0x00000001#32, 0x00400004#32) := by decide
/-- V-ALU-26. -/
theorem test_sltu_alu_26 :
    after (fun t => (t.reg 3, t.pc)) 0x0022182b (withRegs [(1, 0xffffffff#32), (2, 0x00000001#32)]) =
      some (0x00000000#32, 0x00400004#32) := by decide
/-- V-ALU-27. -/
theorem test_slt_alu_27 :
    after (fun t => (t.reg 3, t.pc)) 0x0022182a (withRegs [(1, 0x80000000#32), (2, 0x7fffffff#32)]) =
      some (0x00000001#32, 0x00400004#32) := by decide
/-- V-ALU-31. -/
theorem test_addu_alu_31 :
    after (fun t => (t.reg 0, t.pc)) 0x00220021 (withRegs [(1, 0x00000005#32), (2, 0x00000006#32)]) =
      some (0x0000000b#32, 0x00400004#32) := by decide
/-- V-ALU-32. -/
theorem test_add_alu_32 :
    after (fun t => (t.reg 3, t.pc)) 0x002219e0 (withRegs [(1, 0x00000001#32), (2, 0x00000002#32)]) =
      some (0x00000003#32, 0x00400004#32) := by decide
/-- V-MD-1. -/
theorem test_mult_md_1 :
    after (fun t => (t.hi, t.lo, t.pc)) 0x00220018 (withRegs [(1, 0xffffffff#32), (2, 0xffffffff#32)]) =
      some (0x00000000#32, 0x00000001#32, 0x00400004#32) := by decide
/-- V-MD-6. -/
theorem test_mult_md_6 :
    after (fun t => (t.hi, t.lo, t.pc)) 0x00220018 (withRegs [(1, 0x80000000#32), (2, 0x7fffffff#32)]) =
      some (0xc0000000#32, 0x80000000#32, 0x00400004#32) := by decide
/-- V-MD-2. -/
theorem test_multu_md_2 :
    after (fun t => (t.hi, t.lo, t.pc)) 0x00220019 (withRegs [(1, 0xffffffff#32), (2, 0xffffffff#32)]) =
      some (0xfffffffe#32, 0x00000001#32, 0x00400004#32) := by decide
/-- V-MD-10. -/
theorem test_div_md_10 :
    after (fun t => (t.hi, t.lo, t.pc)) 0x0022001a (withRegs [(1, 0xfffffff9#32), (2, 0x00000002#32)]) =
      some (0xffffffff#32, 0xfffffffd#32, 0x00400004#32) := by decide
/-- V-MD-15. -/
theorem test_div_md_15 :
    after (fun t => (t.pc, t.hi, t.lo, t.out.diag)) 0x0022001a ({ withRegs [(1, 0x00000005#32), (2, 0x00000000#32)] with hi := 0x11111111#32, lo := 0x22222222#32 }) =
      some (0x00400004#32, 0x11111111#32, 0x22222222#32, Diag.divideByZero .div) := by decide
/-- V-MD-13. -/
theorem test_divu_md_13 :
    after (fun t => (t.hi, t.lo, t.pc)) 0x0022001b (withRegs [(1, 0xfffffff9#32), (2, 0x00000002#32)]) =
      some (0x00000001#32, 0x7ffffffc#32, 0x00400004#32) := by decide
/-- V-MD-16. -/
theorem test_divu_md_16 :
    after (fun t => (t.pc, t.hi, t.lo, t.out.diag)) 0x0022001b ({ withRegs [(1, 0x00000005#32), (2, 0x00000000#32)] with hi := 0x11111111#32, lo := 0x22222222#32 }) =
      some (0x00400004#32, 0x11111111#32, 0x22222222#32, Diag.divideByZero .divu) := by decide
/-- V-MD-20. -/
theorem test_mfhi_md_20 :
    after (fun t => (t.reg 3, t.pc)) 0x00001810 ({ withRegs [] with hi := 0xaaaa5555#32, lo := 0x12345678#32 }) =
      some (0xaaaa5555#32, 0x00400004#32) := by decide
/-- V-MD-21. -/
theorem test_mflo_md_21 :
    after (fun t => (t.reg 3, t.pc)) 0x00001812 ({ withRegs [] with hi := 0xaaaa5555#32, lo := 0x12345678#32 }) =
      some (0x12345678#32, 0x00400004#32) := by decide
/-- V-MD-22. -/
theorem test_mthi_md_22 :
    after (fun t => (t.hi, t.lo, t.pc)) 0x00200011 (withRegs [(1, 0xcafef00d#32)]) =
      some (0xcafef00d#32, 0x00000000#32, 0x00400004#32) := by decide
/-- V-MD-23. -/
theorem test_mtlo_md_23 :
    after (fun t => (t.hi, t.lo, t.pc)) 0x00200013 (withRegs [(1, 0xcafef00d#32)]) =
      some (0x00000000#32, 0xcafef00d#32, 0x00400004#32) := by decide
/-- V-IMM-1. -/
theorem test_addi_imm_1 :
    after (fun t => (t.reg 2, t.pc)) 0x2022ffff (withRegs [(1, 0x00000000#32)]) =
      some (0xffffffff#32, 0x00400004#32) := by decide
/-- V-IMM-3. -/
theorem test_addiu_imm_3 :
    after (fun t => (t.reg 2, t.pc)) 0x24228000 (withRegs [(1, 0x00010000#32)]) =
      some (0x00008000#32, 0x00400004#32) := by decide
/-- V-IMM-5. -/
theorem test_andi_imm_5 :
    after (fun t => (t.reg 2, t.pc)) 0x30228001 (withRegs [(1, 0xffffffff#32)]) =
      some (0x00008001#32, 0x00400004#32) := by decide
/-- V-IMM-6. -/
theorem test_ori_imm_6 :
    after (fun t => (t.reg 2, t.pc)) 0x34228000 (withRegs [(1, 0x12340000#32)]) =
      some (0x12348000#32, 0x00400004#32) := by decide
/-- V-IMM-7. -/
theorem test_xori_imm_7 :
    after (fun t => (t.reg 2, t.pc)) 0x3822ffff (withRegs [(1, 0x0000aaaa#32)]) =
      some (0x00005555#32, 0x00400004#32) := by decide
/-- V-IMM-9. -/
theorem test_lui_imm_9 :
    after (fun t => (t.reg 2, t.pc)) 0x3c028001 (withRegs []) =
      some (0x80010000#32, 0x00400004#32) := by decide
/-- V-IMM-11. -/
theorem test_lui_imm_11 :
    after (fun t => (t.pc, t.out.diag)) 0x3c628001 (withRegs [(3, 0x00000001#32)]) =
      some (0x00400004#32, Diag.illegalOperand .lui) := by decide
/-- V-IMM-12. -/
theorem test_addiu_imm_12 :
    after (fun t => (t.reg 1, t.pc)) 0x2421fffc (withRegs [(1, 0x00000010#32)]) =
      some (0x0000000c#32, 0x00400004#32) := by decide
/-- V-BR-1. -/
theorem test_beq_br_1 :
    after (fun t => (t.pc)) 0x10220004 ({ withRegs [(1, 0x00000005#32), (2, 0x00000005#32)] with pc := 0x00001000#32 }) =
      some (0x00001014#32) := by decide
/-- V-BR-4. -/
theorem test_bne_br_4 :
    after (fun t => (t.pc)) 0x1422fffe (withRegs [(1, 0x00000005#32), (2, 0x00000006#32)]) =
      some (0x003ffffc#32) := by decide
/-- V-BR-5. -/
theorem test_bne_br_5 :
    after (fun t => (t.pc)) 0x1422fffe (withRegs [(1, 0x00000005#32), (2, 0x00000005#32)]) =
      some (0x00400004#32) := by decide
/-- V-BR-7. -/
theorem test_blez_br_7 :
    after (fun t => (t.pc)) 0x18200010 (withRegs [(1, 0x80000000#32)]) =
      some (0x00400044#32) := by decide
/-- V-BR-9. -/
theorem test_blez_br_9 :
    after (fun t => (t.pc, t.out.diag)) 0x18230010 (withRegs [(1, 0x00000000#32)]) =
      some (0x00400004#32, Diag.illegalOperand .blez) := by decide
/-- V-BR-10. -/
theorem test_bgtz_br_10 :
    after (fun t => (t.pc)) 0x1c200010 (withRegs [(1, 0x00000001#32)]) =
      some (0x00400044#32) := by decide
/-- V-BR-12. -/
theorem test_bgtz_br_12 :
    after (fun t => (t.pc, t.out.diag)) 0x1c230010 (withRegs [(1, 0x00000001#32)]) =
      some (0x00400004#32, Diag.illegalOperand .bgtz) := by decide
/-- V-BR-13. -/
theorem test_bltz_br_13 :
    after (fun t => (t.pc)) 0x04200008 (withRegs [(1, 0xffffffff#32)]) =
      some (0x00400024#32) := by decide
/-- V-BR-16. -/
theorem test_bgez_br_16 :
    after (fun t => (t.pc)) 0x04210008 (withRegs [(1, 0x80000000#32)]) =
      some (0x00400004#32) := by decide
/-- V-BR-18. -/
theorem test_bltzal_br_18 :
    after (fun t => (t.reg 31, t.pc)) 0x04300008 (withRegs [(1, 0x00000001#32)]) =
      some (0x00400004#32, 0x00400004#32) := by decide
/-- V-BR-22. -/
theorem test_bltzal_br_22 :
    after (fun t => (t.reg 31, t.pc)) 0x07f00008 (withRegs [(31, 0xffffffff#32)]) =
      some (0x00400004#32, 0x00400024#32) := by decide
/-- V-BR-21. -/
theorem test_bgezal_br_21 :
    after (fun t => (t.reg 31, t.pc)) 0x07f10008 (withRegs [(31, 0xffffffff#32)]) =
      some (0x00400004#32, 0x00400004#32) := by decide
/-- V-BR-24. -/
theorem test_beq_br_24 :
    after (fun t => (t.pc)) 0x10000001 ({ withRegs [] with pc := 0xfffffff8#32 }) =
      some (0x00000000#32) := by decide
/-- V-JMP-3. -/
theorem test_j_jmp_3 :
    after (fun t => (t.pc)) 0x08000000 ({ withRegs [] with pc := 0x0ffffffc#32 }) =
      some (0x00000000#32) := by decide
/-- V-JMP-4. -/
theorem test_jal_jmp_4 :
    after (fun t => (t.reg 31, t.pc)) 0x0c100010 (withRegs []) =
      some (0x00400004#32, 0x00400040#32) := by decide
/-- V-JMP-6. -/
theorem test_jr_jmp_6 :
    after (fun t => (t.pc)) 0x00800008 (withRegs [(4, 0x00400102#32)]) =
      some (0x00400102#32) := by decide
/-- V-JMP-8. -/
theorem test_jalr_jmp_8 :
    after (fun t => (t.reg 4, t.pc)) 0x00802009 (withRegs [(4, 0x00400100#32)]) =
      some (0x00400004#32, 0x00400100#32) := by decide
/-- V-SYS-4. -/
theorem test_syscall_sys_4 :
    after (fun t => (t.pc, t.run)) 0x03ffffcc (withRegs [(2, 0x0000000a#32)]) =
      some (0x00400000#32, false) := by decide
/-- V-SYS-3. -/
theorem test_syscall_sys_3 :
    after (fun t => (t.pc, t.run)) 0x0000000c (withRegs [(2, 0x0000010a#32)]) =
      some (0x00400004#32, true) := by decide
/-- V-LS-2. -/
theorem test_lb_ls_2 :
    after (fun t => (t.reg 2, t.pc)) 0x80220001 (withWords [(0x00002000#32, 0x8899aabb#32), (0x00002004#32, 0x11223344#32)] (withRegs [(1, 0x00002000#32)])) =
      some (0xffffffaa#32, 0x00400004#32) := by decide
/-- V-LS-4. -/
theorem test_lbu_ls_4 :
    after (fun t => (t.reg 2, t.pc)) 0x90220003 (withWords [(0x00002000#32, 0x8899aabb#32), (0x00002004#32, 0x11223344#32)] (withRegs [(1, 0x00002000#32)])) =
      some (0x00000088#32, 0x00400004#32) := by decide
/-- V-LS-9. -/
theorem test_lh_ls_9 :
    after (fun t => (t.reg 2, t.pc)) 0x84220003 (withWords [(0x00002000#32, 0x8899aabb#32), (0x00002004#32, 0x11223344#32)] (withRegs [(1, 0x00002000#32)])) =
      some (0x00004488#32, 0x00400004#32) := by decide
/-- V-LS-8. -/
theorem test_lhu_ls_8 :
    after (fun t => (t.reg 2, t.pc)) 0x94220002 (withWords [(0x00002000#32, 0x8899aabb#32), (0x00002004#32, 0x11223344#32)] (withRegs [(1, 0x00002000#32)])) =
      some (0x00008899#32, 0x00400004#32) := by decide
/-- V-LS-11. -/
theorem test_lw_ls_11 :
    after (fun t => (t.reg 2, t.pc)) 0x8c220001 (withWords [(0x00002000#32, 0x8899aabb#32), (0x00002004#32, 0x11223344#32)] (withRegs [(1, 0x00002000#32)])) =
      some (0x448899aa#32, 0x00400004#32) := by decide
/-- V-LS-13. -/
theorem test_lw_ls_13 :
    after (fun t => (t.reg 1, t.pc)) 0x8c210004 (withWords [(0x00002000#32, 0x8899aabb#32), (0x00002004#32, 0x11223344#32)] (withRegs [(1, 0x00002000#32)])) =
      some (0x11223344#32, 0x00400004#32) := by decide
/-- V-LS-14. -/
theorem test_sb_ls_14 :
    after (fun t => (t.mem.readWord 0x00002000#32, t.mem.readWord 0x00002004#32, t.pc)) 0xa0220001 (withWords [(0x00002000#32, 0x8899aabb#32), (0x00002004#32, 0x11223344#32)] (withRegs [(1, 0x00002000#32), (2, 0x123456ff#32)])) =
      some (0x8899ffbb#32, 0x11223344#32, 0x00400004#32) := by decide
/-- V-LS-16. -/
theorem test_sh_ls_16 :
    after (fun t => (t.mem.readWord 0x00002000#32, t.mem.readWord 0x00002004#32, t.pc)) 0xa4220002 (withWords [(0x00002000#32, 0x8899aabb#32), (0x00002004#32, 0x11223344#32)] (withRegs [(1, 0x00002000#32), (2, 0x1234beef#32)])) =
      some (0xbeefaabb#32, 0x11223344#32, 0x00400004#32) := by decide
/-- V-LS-18. -/
theorem test_sw_ls_18 :
    after (fun t => (t.mem.readWord 0x00000000#32, t.mem.readWord 0xfffffffc#32, t.pc)) 0xac22fffc (withRegs [(1, 0x00000002#32), (2, 0x01020304#32)]) =
      some (0x00000102#32, 0x03040000#32, 0x00400004#32) := by decide
/-- V-ERR-2. -/
theorem test_unrecognised_err_2 :
    after (fun t => (t.pc, t.out.diag)) 0x28220005 (withRegs [(1, 0x00000001#32)]) =
      some (0x00400004#32, Diag.unknownOp 0x0a#6) := by decide
/-- V-ERR-6. -/
theorem test_unrecognised_err_6 :
    after (fun t => (t.pc, t.out.diag)) 0x0000000d (withRegs []) =
      some (0x00400004#32, Diag.unknownFunct 0x0d#6) := by decide
/-- V-ERR-10. -/
theorem test_unrecognised_err_10 :
    after (fun t => (t.pc, t.out.diag)) 0x04320004 (withRegs [(1, 0xffffffff#32)]) =
      some (0x00400004#32, Diag.unknownRegimm 0x12#5) := by decide
/-- V-HZ-1. -/
theorem test_addu_hz_1 :
    after (fun t => (t.reg 0, t.pc)) 0x00220021 ({ withRegs [(1, 0x00000005#32), (2, 0x00000006#32)] with cfg := { Config.specChoice with hardwiredZero := true } }) =
      some (0x00000000#32, 0x00400004#32) := by decide

/-! ### The decoder's other answers, and the well-formedness checks -/

theorem test_decode_unknown_op : decodeWord 0xfc000000#32 = .unknown (.op 0x3f#6) := by decide
theorem test_decode_unknown_op_slti : decodeWord 0x28220005#32 = .unknown (.op 0x0a#6) := by decide
theorem test_decode_unknown_funct : decodeWord 0x00221801#32 = .unknown (.funct 0x01#6) := by decide
theorem test_decode_unknown_regimm : decodeWord 0x04220004#32 = .unknown (.regimm 0x02#5) := by decide
theorem test_decode_illegal_lui : decodeWord 0x3c628001#32 = .illegal .lui := by decide
theorem test_decode_illegal_blez : decodeWord 0x18230010#32 = .illegal .blez := by decide
theorem test_decode_illegal_bgtz : decodeWord 0x1c230010#32 = .illegal .bgtz := by decide
theorem test_decode_bytes :
    decodeBytes [0x20#8, 0x18#8, 0x22#8, 0x00#8, 0xff#8] = some (.instr (.add 3 1 2), [0xff#8]) := by decide
theorem test_decode_bytes_short : decodeBytes [0x20#8, 0x18#8, 0x22#8] = none := by decide

theorem test_wf_refuses_lui_with_rs : (Instr.lui 2 3 0x8001#16).wf = false := by decide
theorem test_wf_refuses_blez_with_rt : (Instr.blez 1 3 0x0010#16).wf = false := by decide
theorem test_wf_refuses_bgtz_with_rt : (Instr.bgtz 1 3 0x0010#16).wf = false := by decide

/-! ### The operand functions: V-EXT-8 and V-EXT-10 -/

theorem test_extensions :
    (sext16 0x8001#16, zext16 0x8001#16, sext8 0x01#8, zext8 0xff#8, branchDisp 0x8001#16, sext8 0xff#8) =
      (0xffff8001#32, 0x00008001#32, 0x00000001#32, 0x000000ff#32, 0xfffe0004#32, 0xffffffff#32) := by decide

/-! ### Memory: the canonical form -/

theorem test_memory_zero_is_not_listed :
    Memory.writeWord (Memory.writeWord [] 0x00002000#32 0x11223344#32) 0x00002000#32 0x00000000#32 = [] := by decide

/-! ### Witnesses: concrete states and operands that meet the hypotheses of the statements -/

/-- A running state whose next step fetches this word. -/
def running (w : Nat) (l : List (Reg × Word)) : State := (withRegs l).withFetchWord 32 w

theorem witness_DecodeInvertsEncode : (Instr.lui 31 0 0xffff#16).wf = true ∧ (Instr.blez 31 0 0x8000#16).wf = true := by
  decide

theorem witness_EncodeInvertsDecode : decodeWord 0x002219e0#32 = .instr (.add 3 1 2) := by decide

theorem witness_IgnoredFieldsDoNotMatter :
    decodeWord 0x002219e0#32 = .instr (.add 3 1 2) ∧
      0x00221820#32 &&& (Instr.add 3 1 2).readMask = 0x002219e0#32 &&& (Instr.add 3 1 2).readMask := by decide

theorem witness_StepRunsDecodedInstruction :
    (running 0x00221820 []).run = true ∧ (running 0x00221820 []).cfg.mem = .reference ∧
      (running 0x00221820 []).memFaults (.read (running 0x00221820 []).pc) = false ∧ (Instr.add 3 1 2).wf = true ∧
      decodeWord ((running 0x00221820 []).readWord (running 0x00221820 []).pc) = .instr (.add 3 1 2) ∧
      decodeWord (wordOfBytes ((running 0x00221820 []).mem.readByte (running 0x00221820 []).pc)
        ((running 0x00221820 []).mem.readByte ((running 0x00221820 []).pc + 1#32))
        ((running 0x00221820 []).mem.readByte ((running 0x00221820 []).pc + 2#32))
        ((running 0x00221820 []).mem.readByte ((running 0x00221820 []).pc + 3#32))) = .instr (.add 3 1 2) := by decide

theorem witness_UnrecognisedAndIllegalOnlyAdvance :
    (running 0xfc000000 []).run = true ∧ decodeWord (fetchedWord (running 0xfc000000 [])) = .unknown (.op 0x3f#6) ∧
      (running 0xfc000000 []).memFaults (.read (running 0xfc000000 []).pc) = false ∧
      (running 0x1c230010 []).run = true ∧ decodeWord (fetchedWord (running 0x1c230010 [])) = .illegal .bgtz ∧
      (running 0x1c230010 []).memFaults (.read (running 0x1c230010 []).pc) = false := by decide

theorem witness_EveryRunningStepCompletes :
    State.reset.run = true ∧ State.reset.cfg.mem = .reference ∧
      State.reset.memFaults (.read State.reset.pc) = false ∧
      (∀ c ∈ dataCallsOf (decodeWord (fetchedWord State.reset)) State.reset, State.reset.memFaults c = false) ∧
      (∀ c ∈ dataCalls (.sh 2 1 0xffff#16) State.reset, State.reset.memFaults c = false) := by decide

/-- The reference memory meets the contract, so that the hypothesis `MeetsContract s.cfg` holds of State.reset. -/
theorem witness_MeetsContract : MeetsContract State.reset.cfg := by
  have href : ∀ {s : State}, s.cfg = State.reset.cfg → s.cfg.mem = .reference := fun h => by rw [h]; rfl
  have hbyte : ∀ {s : State} (a : Word), s.cfg = State.reset.cfg → s.byteAt a = s.mem.readByte a := fun a h => by
    simp [State.byteAt, State.readWord_of_reference (href h), Memory.lowByte_readWord]
  refine ⟨fun s c h => State.memFaults_of_reference (href h) c, fun s a h => ?_, fun s a v h hv b => ?_,
    fun s a v h hv b => ?_, fun s a v h => ?_⟩
  · rw [hbyte _ h, hbyte _ h, State.readWord_of_reference (href h), Memory.lowHalf_readWord]
  · rw [hbyte _ (by simpa using h), hbyte _ h, State.writeWord_mem_of_reference (href h)]
    exact Memory.readByte_writeWord_keepAboveByte (by rw [hv, State.readWord_of_reference (href h)]) b
  · rw [hbyte _ (by simpa using h), hbyte _ h, State.writeWord_mem_of_reference (href h)]
    exact Memory.readByte_writeWord_keepAboveHalf (by rw [hv, State.readWord_of_reference (href h)]) b
  · rw [State.readWord_of_reference (href (by simpa using h)), State.writeWord_mem_of_reference (href h),
      Memory.readWord_writeWord_same]

theorem witness_StoppedMachineHasNoStep :
    ({ State.reset with run := false } : State).run = false ∧
      step { State.reset with run := false } = .refused .runFlagClear := ⟨rfl, rfl⟩

/-- A step that answers a next state, for every statement that supposes one: an exit SYSCALL (L1-9). -/
theorem witness_exit_step :
    ∃ t, step (running 0x0000000c [(2, 0x0000000a#32)]) = .next t ∧ t.run = false ∧
      decodeWord (fetchedWord (running 0x0000000c [(2, 0x0000000a#32)])) = .instr .syscall :=
  ⟨_, rfl, rfl, by decide⟩

/-- OnlyExitClearsRunFlag, HaltedStateIsTheOnlyFinalState, MemoryCallsOfAStep, StepDiagnostic, HardwiredZeroLayer: a
step that leaves the run flag true. -/
theorem witness_ordinary_step :
    ∃ t, step (running 0x00221820 []) = .next t ∧ t.run = true ∧ (running 0x00221820 []).cfg.hardwiredZero = false :=
  ⟨_, rfl, rfl, rfl⟩

/-- HardwiredZeroLayer with the parameter true. -/
theorem witness_HardwiredZeroLayer :
    ∃ t, step { running 0x00221820 [] with cfg := { Config.specChoice with hardwiredZero := true } } = .next t ∧
      t.cfg.hardwiredZero = true :=
  ⟨_, rfl, rfl⟩

/-- OnlyExitClearsRunFlag, second clause; OnlyListedFieldsChange for an instruction that stores nothing and writes
neither HI nor LO; DefaultPcRule. -/
theorem witness_exec_add :
    ∃ t, exec (.add 3 1 2) State.reset = .next t ∧ t.run = true ∧ regWritten (.add 3 1 2) ≠ some 0 ∧
      mayWriteHi (.add 3 1 2) = false ∧ mayWriteLo (.add 3 1 2) = false ∧
      bytesStored (.add 3 1 2) State.reset = none ∧ mayOverridePc (.add 3 1 2) = false :=
  ⟨_, rfl, rfl, by decide, rfl, rfl, rfl, rfl⟩

/-- OnlyListedFieldsChange for a store at the top of the address space, on the reference memory. -/
theorem witness_OnlyListedFieldsChange :
    ∃ t, exec (.sw 2 1 0xffff#16) State.reset = .next t ∧ State.reset.cfg.mem = .reference ∧
      bytesStored (.sw 2 1 0xffff#16) State.reset = some (0xffffffff#32, 4) := ⟨_, rfl, rfl, by decide⟩

theorem witness_StepDependsOnArchitectureOnly :
    State.reset.mem.wf ∧ KeepsRegs State.reset (State.reset.report (.unknownOp 0x3f#6)) ∧
      KeepsHiLo State.reset (State.reset.report (.unknownOp 0x3f#6)) ∧
      (∀ a : Word, (State.reset.report (.unknownOp 0x3f#6)).mem.readByte a = State.reset.mem.readByte a) ∧
      (State.reset.report (.unknownOp 0x3f#6)).writes = State.reset.writes ∧
      KeepsRunAndConfig State.reset (State.reset.report (.unknownOp 0x3f#6)) :=
  ⟨by decide, fun _ => rfl, ⟨rfl, rfl⟩, fun _ => rfl, rfl, ⟨rfl, rfl⟩⟩

theorem witness_StepKeepsInvariant : (running 0x00221820 []).Inv ∧ ∃ t, step (running 0x00221820 []) = .next t :=
  ⟨⟨by decide, by decide, by decide, by decide⟩, _, rfl⟩

/-- A state on another collaborator: what its port answers is free. -/
def onOther (n : Nat) (s : State) : State := { s with cfg := { s.cfg with mem := .other n } }

/-- OnlyListedFieldsChange under another collaborator, for an instruction that makes no call. -/
theorem witness_OnlyListedFieldsChange_other :
    ∃ t, exec (.add 3 1 2) (onOther 7 State.reset) = .next t ∧ (onOther 7 State.reset).cfg.mem = .other 7 := ⟨_, rfl, rfl⟩

/-- What another collaborator answers is what a load gets, and what is stored is handed to it, read side and write side
of the parameter MEM (R11, D4). -/
theorem test_other_collaborator :
    (onOther 7 State.reset).readWord 0x00002001#32 = Config.otherRead 7 [] [] 0x00002001#32 ∧
      ((onOther 7 State.reset).writeWord 0x00002001#32 0x11223344#32).writes = [(0x00002001#32, 0x11223344#32)] ∧
      ((onOther 7 State.reset).writeWord 0x00002001#32 0x11223344#32).mem = [] := ⟨rfl, rfl, rfl⟩

/-- WordsAreFourBytesLittleEndian, ReferenceMemoryMeetsContract, and the reference clauses of the loads and stores. -/
theorem witness_reference : State.reset.cfg.mem = .reference := rfl

/-- The loads and stores, the calls' clauses: an odd address, and one at the top of memory. -/
theorem witness_calls_are_answered :
    State.reset.memFaults (.read (effAddr State.reset 1 0xffff#16)) = false ∧
      State.reset.memFaults (.write (effAddr State.reset 1 0xffff#16)
        ((State.reset.readWord 0xffffffff#32).extractLsb' 8 24 ++ (State.reset.reg 2).extractLsb' 0 8)) = false ∧
      State.reset.memFaults (.write (effAddr State.reset 1 0xffff#16)
        ((State.reset.readWord 0xffffffff#32).extractLsb' 16 16 ++ (State.reset.reg 2).extractLsb' 0 16)) = false ∧
      State.reset.memFaults (.write (effAddr State.reset 1 0xffff#16) (State.reset.reg 2)) = false := by decide

theorem witness_CanonicalMemoriesAreEqual :
    Memory.wf (Memory.writeByte [] 0xffffffff#32 0x01#8) ∧
      ∀ a : Word, (Memory.writeByte [] 0xffffffff#32 0x01#8).readByte a =
        (Memory.writeByte [] 0xffffffff#32 0x01#8).readByte a := ⟨by decide, fun _ => rfl⟩

/-- StoreLoadRoundTrip (its collaborator by witness_MeetsContract): SB, SH and SW at an odd address, the load at the
same. -/
theorem witness_StoreLoadRoundTrip :
    (∃ t, exec (.sb 2 1 0x0003#16) State.reset = .next t ∧ effAddr t 1 0x0003#16 = effAddr State.reset 1 0x0003#16) ∧
    (∃ t, exec (.sh 2 1 0x0003#16) State.reset = .next t ∧ effAddr t 1 0x0003#16 = effAddr State.reset 1 0x0003#16) ∧
    (∃ t, exec (.sw 2 1 0x0003#16) State.reset = .next t ∧ effAddr t 1 0x0003#16 = effAddr State.reset 1 0x0003#16) :=
  ⟨⟨_, rfl, rfl⟩, ⟨_, rfl, rfl⟩, ⟨_, rfl, rfl⟩⟩

theorem witness_StoreIsSeenByNextFetch :
    (∃ t, step (running 0xac220004 [(1, 0x00400000#32), (2, 0x2402000a#32)]) = .next t) ∧
      MeetsContract (running 0xac220004 [(1, 0x00400000#32), (2, 0x2402000a#32)]).cfg ∧
      decodeWord (fetchedWord (running 0xac220004 [(1, 0x00400000#32), (2, 0x2402000a#32)])) =
        .instr (.sw 2 1 0x0004#16) ∧
      effAddr (running 0xac220004 [(1, 0x00400000#32), (2, 0x2402000a#32)]) 1 0x0004#16 =
        (running 0xac220004 [(1, 0x00400000#32), (2, 0x2402000a#32)]).pc + 4#32 :=
  ⟨⟨_, rfl⟩, witness_MeetsContract, by decide, by decide⟩

theorem witness_SignedAndUnsignedProducts :
    (∃ t, exec (.mult 1 2) (withRegs [(1, 0xffffffff#32)]) = .next t) ∧
      ∃ u, exec (.multu 1 2) (withRegs [(1, 0xffffffff#32)]) = .next u := ⟨⟨_, rfl⟩, ⟨_, rfl⟩⟩

/-- DivideSigned and DivideUnsigned, each clause at a boundary; the zero divisor also with DIV0 free. -/
theorem witness_divide_clauses :
    ((withRegs [(1, 0x80000000#32), (2, 0xfffffffe#32)]).reg 2 ≠ 0#32 ∧
      ¬ ((withRegs [(1, 0x80000000#32), (2, 0xfffffffe#32)]).reg 1 = 0x80000000#32 ∧
        (withRegs [(1, 0x80000000#32), (2, 0xfffffffe#32)]).reg 2 = 0xffffffff#32)) ∧
    ((withRegs [(1, 0x80000000#32), (2, 0xffffffff#32)]).reg 1 = 0x80000000#32 ∧
      (withRegs [(1, 0x80000000#32), (2, 0xffffffff#32)]).reg 2 = 0xffffffff#32) ∧
    (State.reset.reg 2 = 0#32 ∧ State.reset.cfg.div0 = .unchanged) ∧
    (({ State.reset with cfg := { Config.specChoice with div0 := .anyValue } } : State).reg 2 = 0#32 ∧
      ({ State.reset with cfg := { Config.specChoice with div0 := .anyValue } } : State).cfg.div0 = .anyValue) := by
  decide

/-- V-MD-14: the overflow clause of DivideSigned gives R133's values. -/
theorem test_div_overflow_md_14 :
    after (fun t => (t.hi, t.lo, t.out.diag)) 0x0022001a (withRegs [(1, 0x80000000#32), (2, 0xffffffff#32)]) =
      some (0x00000000#32, 0x80000000#32, Diag.none) := by decide

theorem witness_DivisionIdentities :
    (∃ t, exec (.div 1 2) (withRegs [(1, 0xfffffff9#32), (2, 0x00000002#32)]) = .next t) ∧
      (∃ t, exec (.divu 1 2) (withRegs [(1, 0xfffffff9#32), (2, 0x00000002#32)]) = .next t) ∧
      (withRegs [(1, 0xfffffff9#32), (2, 0x00000002#32)]).reg 2 ≠ 0#32 ∧
      ¬ ((withRegs [(1, 0xfffffff9#32), (2, 0x00000002#32)]).reg 1 = 0x80000000#32 ∧
        (withRegs [(1, 0xfffffff9#32), (2, 0x00000002#32)]).reg 2 = 0xffffffff#32) :=
  ⟨⟨_, rfl⟩, ⟨_, rfl⟩, by decide, by decide⟩

/-- The halted machine takes no step (L1-9 and R201). -/
theorem test_no_step_after_exit :
    (match step (running 0x0000000c [(2, 0x0000000a#32)]) with
      | .next t => step t
      | o => o) = .refused .runFlagClear := rfl

end Sys2Proof.Tests
end

section
/-! PROOFS. The run flag (10_state.md R28): what an instruction and a step do to it. -/

namespace Sys2Proof.Machine

/-! ### Results that keep the run flag and the parameters -/

/-- If a next state is answered, its run flag and parameters are those of `s`; a fault answers none. -/
def AnswerKeepsRunAndConfig (s : State) (o : Result) : Prop := ∀ t, o = .next t → KeepsRunAndConfig s t

theorem answerKeeps_of_next {s t : State} {o : Result} (ho : o = .next t) (h : KeepsRunAndConfig s t) :
    AnswerKeepsRunAndConfig s o := by
  subst ho
  rintro _ ⟨⟩
  exact h

theorem answerKeeps_fault (s : State) (f : Fault) : AnswerKeepsRunAndConfig s (.fault f) := nofun

section
variable {o : Result} {s : State}

theorem WritesRegAndGoes.answerKeeps {rd : Reg} {v target : Word} (h : WritesRegAndGoes o s rd v target) :
    AnswerKeepsRunAndConfig s o := by
  obtain ⟨t, ho, -, -, -, -, -, hkeep, -⟩ := h
  exact answerKeeps_of_next ho hkeep

theorem GoesTo.answerKeeps {target : Word} (h : GoesTo o s target) : AnswerKeepsRunAndConfig s o := by
  obtain ⟨t, ho, -, -, -, -, hkeep, -⟩ := h
  exact answerKeeps_of_next ho hkeep

theorem WritesHiLo.answerKeeps {hi lo : Word} (h : WritesHiLo o s hi lo) : AnswerKeepsRunAndConfig s o := by
  obtain ⟨t, ho, -, -, -, -, -, hkeep, -⟩ := h
  exact answerKeeps_of_next ho hkeep

theorem ReportsWithHiLo.answerKeeps {d : Diag} {hi lo : Word} (h : ReportsWithHiLo o s d hi lo) :
    AnswerKeepsRunAndConfig s o := by
  obtain ⟨t, ho, -, -, -, -, -, hkeep, -⟩ := h
  exact answerKeeps_of_next ho hkeep

theorem Loads.answerKeeps {rt : Reg} {v a : Word} (h : Loads o s rt v a) : AnswerKeepsRunAndConfig s o := by
  obtain ⟨t, ho, -, -, -, -, -, hkeep, -⟩ := h
  exact answerKeeps_of_next ho hkeep

theorem WritesWord.answerKeeps {a v : Word} {calls : List MemCall} (h : WritesWord o s a v calls) :
    AnswerKeepsRunAndConfig s o := by
  obtain ⟨t, ho, -, -, -, -, hkeep, -⟩ := h
  exact answerKeeps_of_next ho hkeep

end

/-! ### The instructions with more than one outcome -/

theorem loadWith_answerKeeps (pick : Word → Word) (rt rs : Reg) (imm16 : BitVec 16) (s : State) :
    AnswerKeepsRunAndConfig s (loadWith pick rt rs imm16 s) := by
  cases h : s.memFaults (.read (effAddr s rs imm16))
  · exact (loadWith_loads pick rt rs imm16 h).answerKeeps
  · rw [loadWith, memRead_of_fault h]
    exact answerKeeps_fault s _

theorem storeMerged_answerKeeps (merge : Word → Word → Word) (rt rs : Reg) (imm16 : BitVec 16) (s : State) :
    AnswerKeepsRunAndConfig s (storeMerged merge rt rs imm16 s) := by
  cases hr : s.memFaults (.read (effAddr s rs imm16))
  · cases hw : s.memFaults (.write (effAddr s rs imm16) (merge (s.readWord (effAddr s rs imm16)) (s.reg rt)))
    · exact (storeMerged_writesWord merge rt rs imm16 hr hw).answerKeeps
    · rw [storeMerged, memRead_of_answer hr, memWrite_of_fault (by simpa using hw)]
      exact answerKeeps_fault s _
  · rw [storeMerged, memRead_of_fault hr]
    exact answerKeeps_fault s _

theorem execSw_answerKeeps (rt rs : Reg) (imm16 : BitVec 16) (s : State) :
    AnswerKeepsRunAndConfig s (execSw rt rs imm16 s) := by
  cases h : s.memFaults (.write (effAddr s rs imm16) (s.reg rt))
  · exact (execSw_writesWord rt rs imm16 h).answerKeeps
  · rw [execSw, memWrite_of_fault h]
    exact answerKeeps_fault s _

theorem ite_answerKeeps {p : Prop} [Decidable p] {s : State} {o o' : Result} (h : AnswerKeepsRunAndConfig s o)
    (h' : AnswerKeepsRunAndConfig s o') : AnswerKeepsRunAndConfig s (if p then o else o') := by
  split
  · exact h
  · exact h'

/-! ### Every instruction, every decoded word, every step -/

/-- Every instruction but SYSCALL keeps the run flag, and the parameters. -/
theorem exec_answerKeeps {i : Instr} (h : i ≠ .syscall) (s : State) : AnswerKeepsRunAndConfig s (exec i s) := by
  cases i with
  | syscall => exact absurd rfl h
  | sll | srl | sra | sllv | srlv | srav | mfhi | mflo | add | addu | sub | subu | and | or | xor | nor | slt | sltu
  | addi | addiu | andi | ori | xori => exact (writeAndAdvance_writesReg s _ _).answerKeeps
  | lui => exact ite_answerKeeps (execIllegal_reportsOnly _ s).answerKeeps (writeAndAdvance_writesReg s _ _).answerKeeps
  | mthi | mtlo => exact answerKeeps_of_next rfl ⟨rfl, rfl⟩
  | mult | multu => exact (writeProduct_writesHiLo s _).answerKeeps
  | div | divu =>
    exact ite_answerKeeps (divideByZero_reports s _ _).answerKeeps (writeHiLoAndAdvance_writesHiLo s _ _).answerKeeps
  | beq | bne | bltz | bgez => exact (branchIf_goesTo s _ _).answerKeeps
  | blez | bgtz => exact ite_answerKeeps (execIllegal_reportsOnly _ s).answerKeeps (branchIf_goesTo s _ _).answerKeeps
  | bltzal | bgezal => exact (linkAndBranchIf_writes s _ _).answerKeeps
  | j | jr => exact (jumpTo_goesTo s _).answerKeeps
  | jal | jalr => exact (setReg_jumpTo_writes s _ _ _).answerKeeps
  | lb | lh | lw | lbu | lhu =>
    simp only [exec, execLb, execLh, execLw, execLbu, execLhu]
    exact loadWith_answerKeeps _ _ _ _ s
  | sb | sh => exact storeMerged_answerKeeps _ _ _ _ s
  | sw => exact execSw_answerKeeps _ _ _ s

/-- R200, R202: SYSCALL clears the run flag with service number 0x0a and otherwise keeps it. -/
theorem execSyscall_run_eq_false_iff {s t : State} (h : execSyscall s = .next t) :
    t.run = false ↔ s.run = false ∨ s.reg 2 = 0x0000000a#32 := by
  unfold execSyscall at h
  split at h
  next hexit =>
    cases h
    exact iff_of_true rfl (.inr hexit)
  next hexit =>
    cases h
    exact (or_iff_left hexit).symm

/-- The flag is false after an instruction exactly when it was false before, or the instruction is the exit SYSCALL. -/
theorem exec_run_eq_false_iff {i : Instr} {s t : State} (h : exec i s = .next t) :
    t.run = false ↔ s.run = false ∨ (i = .syscall ∧ s.reg 2 = 0x0000000a#32) := by
  by_cases hi : i = .syscall
  · subst hi
    simpa using execSyscall_run_eq_false_iff h
  · obtain ⟨hrun, -⟩ := exec_answerKeeps hi s t h
    simp [hi, hrun]

/-- The same for a decoded word: an unrecognised or illegal one is never the exit SYSCALL. -/
theorem execDecoded_run_eq_false_iff {d : Decoded} {s t : State} (h : execDecoded d s = .next t) :
    t.run = false ↔ s.run = false ∨ (d = .instr .syscall ∧ s.reg 2 = 0x0000000a#32) := by
  cases d with
  | instr i => simpa using exec_run_eq_false_iff h
  | unknown u =>
    obtain ⟨hrun, -⟩ := (execUnknown_reportsOnly u s).answerKeeps t h
    simp [hrun]
  | illegal m =>
    obtain ⟨hrun, -⟩ := (execIllegal_reportsOnly m s).answerKeeps t h
    simp [hrun]

@[simp] theorem afterFetch_run (s : State) : (afterFetch s).run = s.run := rfl
@[simp] theorem afterFetch_reg (s : State) (r : Reg) : (afterFetch s).reg r = s.reg r := rfl

theorem step_run_eq_false_iff {s t : State} (h : step s = .next t) :
    t.run = false ↔ decodeWord (fetchedWord s) = .instr .syscall ∧ s.reg 2 = 0x0000000a#32 := by
  obtain ⟨hrun, -, u, hexec, rfl⟩ := step_next_inv h
  simpa [hrun] using execDecoded_run_eq_false_iff hexec

/-- Settles O14: the step's clause from what execution does to the flag on a running state, the instruction's from the
same equivalence read backwards. -/
theorem onlyExitClearsRunFlag : Obligations.OnlyExitClearsRunFlag := by
  refine ⟨fun s t h => step_run_eq_false_iff h, fun i s t h ht => ?_⟩
  by_contra hs
  have hclear : t.run = false := (exec_run_eq_false_iff h).mpr (.inl (by simpa using hs))
  simp [ht] at hclear

end Sys2Proof.Machine
end

section
/-! PROOFS. The memory port (20_memory.md R41, R42): the calls an instruction, a decoded word and a step put on it. -/

namespace Sys2Proof.Machine

/-! ### Results that append to the calls on the memory port -/

/-- If a next state is answered, `calls` stand on its memory port after the calls of `s`; a fault answers none. -/
def MakesCalls (o : Result) (s : State) (calls : List MemCall) : Prop :=
  ∀ t, o = .next t → t.out.calls = s.out.calls ++ calls

theorem makesCalls_of_next {o : Result} {s t : State} {calls : List MemCall} (ho : o = .next t)
    (h : t.out.calls = s.out.calls ++ calls) : MakesCalls o s calls := by
  subst ho
  rintro _ ⟨⟩
  exact h

theorem makesCalls_nil_of_out {o : Result} {s t : State} (ho : o = .next t) (h : t.out.calls = s.out.calls) :
    MakesCalls o s [] :=
  makesCalls_of_next ho (by simp [h])

theorem ite_makesCalls {p : Prop} [Decidable p] {o o' : Result} {s : State} {calls : List MemCall}
    (h : MakesCalls o s calls) (h' : MakesCalls o' s calls) : MakesCalls (if p then o else o') s calls := by
  split
  · exact h
  · exact h'

section
variable {o : Result} {s : State}

theorem WritesRegAndGoes.makesCalls {rd : Reg} {v target : Word} (h : WritesRegAndGoes o s rd v target) :
    MakesCalls o s [] := by
  obtain ⟨t, ho, -, -, -, -, -, -, hout⟩ := h
  exact makesCalls_nil_of_out ho (by rw [hout])

theorem GoesTo.makesCalls {target : Word} (h : GoesTo o s target) : MakesCalls o s [] := by
  obtain ⟨t, ho, -, -, -, -, -, hout⟩ := h
  exact makesCalls_nil_of_out ho (by rw [hout])

theorem WritesHiLo.makesCalls {hi lo : Word} (h : WritesHiLo o s hi lo) : MakesCalls o s [] := by
  obtain ⟨t, ho, -, -, -, -, -, -, hout⟩ := h
  exact makesCalls_nil_of_out ho (by rw [hout])

theorem ReportsWithHiLo.makesCalls {d : Diag} {hi lo : Word} (h : ReportsWithHiLo o s d hi lo) :
    MakesCalls o s [] := by
  obtain ⟨t, ho, -, -, -, -, -, -, hout⟩ := h
  exact makesCalls_nil_of_out ho (by rw [hout])

theorem Loads.makesCalls {rt : Reg} {v a : Word} (h : Loads o s rt v a) : MakesCalls o s [.read a] := by
  obtain ⟨t, ho, -, -, -, -, -, -, hout⟩ := h
  exact makesCalls_of_next ho (by rw [hout])

theorem WritesWord.makesCalls {a v : Word} {calls : List MemCall} (h : WritesWord o s a v calls) :
    MakesCalls o s calls := by
  obtain ⟨t, ho, -, -, -, -, -, hout⟩ := h
  exact makesCalls_of_next ho (by rw [hout])

end

/-! ### Loads and stores: a next state is answered only where the collaborator answers each call -/

theorem memRead_next_inv {s t : State} {a : Word} {k : Word → State → Result} (h : s.memRead a k = .next t) :
    s.memFaults (.read a) = false ∧ k (s.readWord a) (s.call (.read a)) = .next t := by
  cases hf : s.memFaults (.read a)
  · exact ⟨rfl, by rwa [memRead_of_answer hf] at h⟩
  · simp [memRead_of_fault hf] at h

theorem memWrite_next_inv {s t : State} {a v : Word} {k : State → Result} (h : s.memWrite a v k = .next t) :
    s.memFaults (.write a v) = false ∧ k ((s.writeWord a v).call (.write a v)) = .next t := by
  cases hf : s.memFaults (.write a v)
  · exact ⟨rfl, by rwa [memWrite_of_answer hf] at h⟩
  · simp [memWrite_of_fault hf] at h

theorem loadWith_makesCalls (pick : Word → Word) (rt rs : Reg) (imm16 : BitVec 16) (s : State) :
    MakesCalls (loadWith pick rt rs imm16 s) s [.read (effAddr s rs imm16)] := by
  intro t h
  obtain ⟨hr, -⟩ := memRead_next_inv h
  exact (loadWith_loads pick rt rs imm16 hr).makesCalls t h

theorem storeMerged_makesCalls (merge : Word → Word → Word) (rt rs : Reg) (imm16 : BitVec 16) (s : State) :
    MakesCalls (storeMerged merge rt rs imm16 s) s
      [.read (effAddr s rs imm16),
        .write (effAddr s rs imm16) (merge (s.readWord (effAddr s rs imm16)) (s.reg rt))] := by
  intro t h
  obtain ⟨hr, hwrite⟩ := memRead_next_inv h
  obtain ⟨hw, -⟩ := memWrite_next_inv hwrite
  exact (storeMerged_writesWord merge rt rs imm16 hr hw).makesCalls t h

theorem execSw_makesCalls (rt rs : Reg) (imm16 : BitVec 16) (s : State) :
    MakesCalls (execSw rt rs imm16 s) s [.write (effAddr s rs imm16) (s.reg rt)] := by
  intro t h
  obtain ⟨hw, -⟩ := memWrite_next_inv h
  exact (execSw_writesWord rt rs imm16 hw).makesCalls t h

/-! ### Every instruction, every decoded word, every step -/

/-- R41, R42: an instruction that answers a next state has made its data calls, in order, and no other. -/
theorem exec_makesCalls (i : Instr) (s : State) : MakesCalls (exec i s) s (dataCalls i s) := by
  cases i with
  | sll | srl | sra | sllv | srlv | srav | mfhi | mflo | add | addu | sub | subu | and | or | xor | nor | slt | sltu
  | addi | addiu | andi | ori | xori => exact (writeAndAdvance_writesReg s _ _).makesCalls
  | lui => exact ite_makesCalls (execIllegal_reportsOnly _ s).makesCalls (writeAndAdvance_writesReg s _ _).makesCalls
  | mthi | mtlo => exact makesCalls_nil_of_out rfl rfl
  | mult | multu => exact (writeProduct_writesHiLo s _).makesCalls
  | div | divu =>
    exact ite_makesCalls (divideByZero_reports s _ _).makesCalls (writeHiLoAndAdvance_writesHiLo s _ _).makesCalls
  | beq | bne | bltz | bgez => exact (branchIf_goesTo s _ _).makesCalls
  | blez | bgtz => exact ite_makesCalls (execIllegal_reportsOnly _ s).makesCalls (branchIf_goesTo s _ _).makesCalls
  | bltzal | bgezal => exact (linkAndBranchIf_writes s _ _).makesCalls
  | j | jr => exact (jumpTo_goesTo s _).makesCalls
  | jal | jalr => exact (setReg_jumpTo_writes s _ _ _).makesCalls
  | syscall => exact ite_makesCalls (makesCalls_nil_of_out rfl rfl) (advance_goesTo s).makesCalls
  | lb rt rs imm16 | lh rt rs imm16 | lw rt rs imm16 | lbu rt rs imm16 | lhu rt rs imm16 =>
    simp only [exec, execLb, execLh, execLw, execLbu, execLhu]
    exact loadWith_makesCalls _ rt rs imm16 s
  | sb rt rs imm16 => exact storeMerged_makesCalls mergeByte rt rs imm16 s
  | sh rt rs imm16 => exact storeMerged_makesCalls mergeHalf rt rs imm16 s
  | sw rt rs imm16 => exact execSw_makesCalls rt rs imm16 s

/-- The same for a decoded word: an unrecognised or illegal one makes no data call (R41). -/
theorem execDecoded_makesCalls (d : Decoded) (s : State) : MakesCalls (execDecoded d s) s (dataCallsOf d s) := by
  cases d with
  | instr i => exact exec_makesCalls i s
  | unknown u => exact (execUnknown_reportsOnly u s).makesCalls
  | illegal m => exact (execIllegal_reportsOnly m s).makesCalls

/-- The fetch changes nothing an instruction's data calls depend on. -/
@[simp] theorem dataCallsOf_afterFetch (d : Decoded) (s : State) : dataCallsOf d (afterFetch s) = dataCallsOf d s := rfl

@[simp] theorem afterFetch_calls (s : State) : (afterFetch s).out.calls = [.read s.pc] := rfl

/-- Settles O17: execution starts with the fetch alone on the port, appends the data calls of the decoded word, and the
commit leaves the port as it is. -/
theorem memoryCallsOfAStep : Obligations.MemoryCallsOfAStep := by
  intro s t h
  obtain ⟨-, -, u, hexec, rfl⟩ := step_next_inv h
  simpa using execDecoded_makesCalls _ _ u hexec

end Sys2Proof.Machine
end

section
/-! PROOFS. The fields of a word (30_encoding.md R61): each read off bit by bit, and the word put together from them. -/

namespace Sys2Proof

/-- Bit `i` of a slice is the bit at its offset, for every bit of the slice. -/
theorem getLsbD_slice_add {n a k : Nat} (x : BitVec n) (i : Nat) (h : i < k) :
    (x.extractLsb' a k).getLsbD i = x.getLsbD (a + i) := by simp [h]

/-- The upper half of a word, which the R- and the I-format share. -/
theorem opRsRt_append (w : Word) : opOf w ++ rsBits w ++ rtBits w = w.extractLsb' 16 16 := by
  have hrs : opOf w ++ rsBits w = w.extractLsb' 21 11 := BitVec.extractLsb'_append_extractLsb'_eq_extractLsb' rfl
  rw [hrs]
  exact BitVec.extractLsb'_append_extractLsb'_eq_extractLsb' rfl

/-- The layout of the R-format: rd, shamt and funct are the lower half. -/
theorem rFields_append (w : Word) :
    opOf w ++ rsBits w ++ rtBits w ++ rdBits w ++ shamtBits w ++ functOf w = w := by
  have hrd : w.extractLsb' 16 16 ++ rdBits w = w.extractLsb' 11 21 :=
    BitVec.extractLsb'_append_extractLsb'_eq_extractLsb' rfl
  have hshamt : w.extractLsb' 11 21 ++ shamtBits w = w.extractLsb' 6 26 :=
    BitVec.extractLsb'_append_extractLsb'_eq_extractLsb' rfl
  have hfunct : w.extractLsb' 6 26 ++ functOf w = w.extractLsb' 0 32 :=
    BitVec.extractLsb'_append_extractLsb'_eq_extractLsb' rfl
  rw [opRsRt_append, hrd, hshamt, hfunct, BitVec.extractLsb'_eq_self]

/-- The layout of the I-format: imm16 is the lower half. -/
theorem iFields_append (w : Word) : opOf w ++ rsBits w ++ rtBits w ++ imm16Of w = w := by
  have himm : w.extractLsb' 16 16 ++ imm16Of w = w.extractLsb' 0 32 :=
    BitVec.extractLsb'_append_extractLsb'_eq_extractLsb' rfl
  rw [opRsRt_append, himm, BitVec.extractLsb'_eq_self]

/-- The layout of the J-format. -/
theorem jFields_append (w : Word) : opOf w ++ target26Of w = w := by
  have h : opOf w ++ target26Of w = w.extractLsb' 0 32 := BitVec.extractLsb'_append_extractLsb'_eq_extractLsb' rfl
  rw [h, BitVec.extractLsb'_eq_self]

/-- Settles O1: each field is a slice of the word, whose bits are the word's at its offset, and adjacent slices
append. -/
theorem fieldsAreTheNamedBits : Obligations.FieldsAreTheNamedBits := by
  intro w
  refine ⟨?op, ?rs, ?rt, ?rd, ?shamt, ?funct, ?imm16, ?target26, (rFields_append w).symm, (iFields_append w).symm,
    (jFields_append w).symm⟩
  case op | rs | rt | rd | shamt => exact getLsbD_slice_add w
  case funct | imm16 | target26 => exact fun i hi => (getLsbD_slice_add w i hi).trans (by rw [Nat.zero_add])

end Sys2Proof
end

section
/-! PROOFS. The extensions (30_encoding.md R63 to R66) and the targets and constants built on them (R69 to R71). -/

namespace Sys2Proof.Machine

/-! ### Sign and zero extension: as integers, and bit by bit -/

@[simp] theorem toInt_sext16 (v : BitVec 16) : (sext16 v).toInt = v.toInt := BitVec.toInt_signExtend_of_le (by decide)
@[simp] theorem toInt_sext8 (v : BitVec 8) : (sext8 v).toInt = v.toInt := BitVec.toInt_signExtend_of_le (by decide)
@[simp] theorem toNat_zext16 (v : BitVec 16) : (zext16 v).toNat = v.toNat :=
  BitVec.toNat_setWidth_of_le (by decide)
@[simp] theorem toNat_zext8 (v : BitVec 8) : (zext8 v).toNat = v.toNat :=
  BitVec.toNat_setWidth_of_le (by decide)

theorem sext16_eq_append (v : BitVec 16) : sext16 v = (if v.getLsbD 15 then 0xffff#16 else 0x0000#16) ++ v := by
  simpa [sext16, BitVec.msb_eq_getLsbD_last] using BitVec.signExtend_eq_append_of_le (x := v) (v := 32) (by decide)

theorem sext8_eq_append (v : BitVec 8) : sext8 v = (if v.getLsbD 7 then 0xffffff#24 else 0x000000#24) ++ v := by
  simpa [sext8, BitVec.msb_eq_getLsbD_last] using BitVec.signExtend_eq_append_of_le (x := v) (v := 32) (by decide)

theorem zext16_eq_append (v : BitVec 16) : zext16 v = 0x0000#16 ++ v := BitVec.setWidth_eq_append (by decide)
theorem zext8_eq_append (v : BitVec 8) : zext8 v = 0x000000#24 ++ v := BitVec.setWidth_eq_append (by decide)

/-- Settles O2, one extension after the other. -/
theorem extensionsReplicateSignOrZero : Obligations.ExtensionsReplicateSignOrZero :=
  ⟨fun v => ⟨sext16_eq_append v, toInt_sext16 v⟩, fun v => ⟨sext8_eq_append v, toInt_sext8 v⟩,
    fun v => ⟨zext16_eq_append v, toNat_zext16 v⟩, fun v => ⟨zext8_eq_append v, toNat_zext8 v⟩⟩

/-! ### Branch displacement, jump target and LUI constant -/

/-- R69: four times a 16-bit signed value lies in the range of a word, so the shift loses nothing. -/
theorem toInt_branchDisp (imm16 : BitVec 16) : (branchDisp imm16).toInt = 4 * imm16.toInt := by
  have hlo : -2 ^ 15 ≤ imm16.toInt := imm16.le_toInt
  have hhi : imm16.toInt < 2 ^ 15 := BitVec.toInt_lt
  calc (branchDisp imm16).toInt = (imm16.toInt * 4).bmod (2 ^ 32) := by
        rw [branchDisp, BitVec.shiftLeft_eq_mul_twoPow, BitVec.toInt_mul, toInt_sext16]; rfl
    _ = 4 * imm16.toInt := by rw [Int.bmod_eq_of_le] <;> omega

/-- R70: the jump target, slice by slice. -/
theorem jumpTarget_eq_append (s : State) (target26 : BitVec 26) :
    jumpTarget s target26 = s.pc.extractLsb' 28 4 ++ target26 ++ 0#2 := by
  apply BitVec.eq_of_getLsbD_eq
  intro i hi
  show _ = BitVec.getLsbD (w := 4 + 26 + 2) (s.pc.extractLsb' 28 4 ++ target26 ++ 0#2) i
  simp only [BitVec.getLsbD_append, jumpTarget, BitVec.getLsbD_or, BitVec.getLsbD_and, BitVec.getLsbD_extractLsb']
  interval_cases i <;> simp

/-- R71: the shift by 16 drops the upper half, which zero extension had filled, and keeps the immediate. -/
theorem luiConst_eq_append (imm16 : BitVec 16) : luiConst imm16 = imm16 ++ 0x0000#16 := by
  have hlow : (zext16 imm16).extractLsb' 0 16 = imm16 := by
    rw [zext16_eq_append, BitVec.extractLsb'_append_eq_right]
  calc luiConst imm16 = (zext16 imm16).extractLsb' 0 16 ++ 0x0000#16 := BitVec.shiftLeft_eq_concat_of_lt (by decide)
    _ = imm16 ++ 0x0000#16 := by rw [hlow]

/-- Settles O3: the displacement's range is four times that of a 16-bit signed value, and the jump target's slices are
those it was put together from. -/
theorem targetsAndUpperConstant : Obligations.TargetsAndUpperConstant := by
  refine ⟨fun imm16 => ?disp, fun _ _ => rfl, fun s target26 => ?jump, luiConst_eq_append⟩
  case disp =>
    have hlo : -2 ^ 15 ≤ imm16.toInt := imm16.le_toInt
    have hhi : imm16.toInt < 2 ^ 15 := BitVec.toInt_lt
    rw [toInt_branchDisp]
    omega
  case jump =>
    rw [jumpTarget_eq_append]
    refine ⟨?_, ?_, BitVec.extractLsb'_append_eq_right⟩
    · rw [BitVec.append_assoc]
      exact BitVec.extractLsb'_append_eq_left
    · exact (BitVec.extractLsb'_append_eq_of_le (by decide)).trans BitVec.extractLsb'_append_eq_right

end Sys2Proof.Machine
end

section
/-! PROOFS. The shifter and the register-register ALU (41_alu_register.md R100 to R115): the shared facts (encoding,
results as integer formulas), then the statements by family. -/

namespace Sys2Proof.Machine

/-! ### Encoding: the words of one funct -/

/-- Under op 0x00 the funct alone selects the arm of `decodeFunct`, with every operand field still the word's own
(30_encoding.md R75). -/
theorem decodesFunct_of_fields {funct : BitVec 6} {mk : Word → Instr}
    (h : ∀ w : Word, decodeFunct { fieldsOf w with funct := funct } = .instr (mk w)) : DecodesFunct funct mk := by
  intro w hop hfunct
  have hdecode : decodeWord w = decodeFunct (fieldsOf w) := by simp only [decodeWord, decodeFields, fieldsOf, hop]
  have hfields : fieldsOf w = { fieldsOf w with funct := funct } := by simp only [fieldsOf, hfunct]
  rw [hdecode, hfields, h w]

/-! ### Results: the model's operators as the rules' formulas -/

/-- `writeAndAdvance` under a rule's own formula for the value. -/
theorem writeAndAdvance_writesReg_of_eq {s : State} {rd : Reg} {v v' : Word} (h : v = v') :
    WritesReg (writeAndAdvance s rd v) s rd v' := h ▸ writeAndAdvance_writesReg s rd v

theorem shiftLeft_eq_ofNat (x : Word) (n : Nat) : x <<< n = BitVec.ofNat 32 (x.toNat * 2 ^ n) := by
  apply BitVec.eq_of_toNat_eq
  rw [BitVec.toNat_shiftLeft, BitVec.toNat_ofNat, Nat.shiftLeft_eq]

theorem ushiftRight_eq_ofNat (x : Word) (n : Nat) : x >>> n = BitVec.ofNat 32 (x.toNat / 2 ^ n) := by
  rw [← Nat.shiftRight_eq_div_pow, ← BitVec.toNat_ushiftRight, BitVec.ofNat_toNat, BitVec.setWidth_eq]

/-- The divisor is positive, so the integer division rounds toward minus infinity, as R102 asks. -/
theorem sshiftRight_eq_ofInt (x : Word) (n : Nat) : x.sshiftRight n = BitVec.ofInt 32 (x.toInt / 2 ^ n) := by
  rw [BitVec.sshiftRight_eq, Int.shiftRight_eq_div_pow, Nat.cast_pow, Nat.cast_ofNat]

/-- R72: the low 5 bits of x[rs] are its value modulo 32. -/
theorem varShamt_eq_mod (s : State) (rs : Reg) : varShamt s rs = (s.reg rs).toNat % 32 :=
  (BitVec.toNat_and _ _).trans (Nat.and_two_pow_sub_one_eq_mod _ 5)

theorem add_eq_ofNat (x y : Word) : x + y = BitVec.ofNat 32 (x.toNat + y.toNat) := by
  rw [BitVec.ofNat_add, BitVec.ofNat_toNat, BitVec.ofNat_toNat, BitVec.setWidth_eq, BitVec.setWidth_eq]

theorem sub_eq_ofInt (x y : Word) : x - y = BitVec.ofInt 32 (x.toInt - y.toInt) := by
  apply BitVec.eq_of_toInt_eq
  rw [BitVec.toInt_sub, BitVec.toInt_ofInt]

theorem boolWord_decide (p : Prop) [Decidable p] : boolWord (decide p) = if p then 1#32 else 0#32 := by
  simp only [boolWord, decide_eq_true_eq]

/-! ### The statements -/

/-- Settles O32: the amount is the shamt field as it stands. -/
theorem constantShifts : Obligations.ConstantShifts := by
  refine ⟨?sllWord, ?srlWord, ?sraWord, fun rd rt shamt s => ⟨?sll, ?srl, ?sra⟩⟩
  case sllWord | srlWord | sraWord => exact decodesFunct_of_fields fun _ => rfl
  case sll => exact writeAndAdvance_writesReg_of_eq (shiftLeft_eq_ofNat _ _)
  case srl => exact writeAndAdvance_writesReg_of_eq (ushiftRight_eq_ofNat _ _)
  case sra => exact writeAndAdvance_writesReg_of_eq (sshiftRight_eq_ofInt _ _)

/-- Settles O33: the constant shifts' results, at the amount `varShamt`. -/
theorem variableShifts : Obligations.VariableShifts := by
  refine ⟨?sllvWord, ?srlvWord, ?sravWord, fun rd rt rs s => ?effect⟩
  case sllvWord | srlvWord | sravWord => exact decodesFunct_of_fields fun _ => rfl
  case effect =>
    rw [← varShamt_eq_mod]
    refine ⟨?sllv, ?srlv, ?srav⟩
    case sllv => exact writeAndAdvance_writesReg_of_eq (shiftLeft_eq_ofNat _ _)
    case srlv => exact writeAndAdvance_writesReg_of_eq (ushiftRight_eq_ofNat _ _)
    case srav => exact writeAndAdvance_writesReg_of_eq (sshiftRight_eq_ofInt _ _)

/-- Settles O34: ADD and ADDU, SUB and SUBU, are the same function in the model, so the last two clauses hold by
definition. -/
theorem addAndSubtract : Obligations.AddAndSubtract := by
  refine ⟨?addWord, ?adduWord, ?subWord, ?subuWord, fun rd rs rt s => ⟨?add, ?addu, ?sub, ?subu, rfl, rfl⟩⟩
  case addWord | adduWord | subWord | subuWord => exact decodesFunct_of_fields fun _ => rfl
  case add | addu => exact writeAndAdvance_writesReg_of_eq (add_eq_ofNat _ _)
  case sub | subu => exact writeAndAdvance_writesReg_of_eq (sub_eq_ofInt _ _)

/-- Settles O35: AND, OR and XOR are the model's operators; NOR by De Morgan. -/
theorem bitwiseLogic : Obligations.BitwiseLogic := by
  refine ⟨?andWord, ?orWord, ?xorWord, ?norWord, fun rd rs rt s => ⟨?and, ?or, ?xor, ?nor⟩⟩
  case andWord | orWord | xorWord | norWord => exact decodesFunct_of_fields fun _ => rfl
  case and | or | xor => exact writeAndAdvance_writesReg s rd _
  case nor => exact writeAndAdvance_writesReg_of_eq BitVec.not_or

/-- Settles O36: each comparison is the rule's own, on integers. -/
theorem setOnLessThan : Obligations.SetOnLessThan := by
  refine ⟨?sltWord, ?sltuWord, fun rd rs rt s => ⟨?slt, ?sltu⟩⟩
  case sltWord | sltuWord => exact decodesFunct_of_fields fun _ => rfl
  case slt | sltu => exact writeAndAdvance_writesReg_of_eq (boolWord_decide _)

end Sys2Proof.Machine
end

section
/-! PROOFS. The multiplier and the HI/LO moves (42_muldiv_hilo.md R131, R132, R135 to R138). -/

namespace Sys2Proof.Machine

/-! ### The product: it fits in 64 bits, and HI:LO is all of them -/

/-- The magnitude of a signed product is at most 2^62, so the 64-bit pattern is exact (R131). -/
theorem toInt_ofInt_mul (a b : Word) : (BitVec.ofInt 64 (a.toInt * b.toInt)).toInt = a.toInt * b.toInt := by
  have hlo : -2 ^ 62 ≤ a.toInt * b.toInt := BitVec.le_toInt_mul_toInt
  have hhi : a.toInt * b.toInt ≤ 2 ^ 62 := BitVec.toInt_mul_toInt_le
  exact BitVec.toInt_ofInt_eq_self (by decide) (by omega) (by omega)

/-- An unsigned product is below 2^64 (R132). -/
theorem toNat_ofNat_mul (a b : Word) : (BitVec.ofNat 64 (a.toNat * b.toNat)).toNat = a.toNat * b.toNat :=
  (BitVec.toNat_ofNat _ _).trans (Nat.mod_eq_of_lt BitVec.toNat_mul_toNat_lt)

/-- The two halves that `writeProduct` puts in HI and LO, read as one number, are the product. -/
theorem writeProduct_writesHalvesOf (s : State) (p : BitVec 64) :
    ∃ hi lo : Word, WritesHiLo (writeProduct s p) s hi lo ∧ (hi ++ lo : BitVec 64) = p :=
  ⟨_, _, writeProduct_writesHiLo s p, BitVec.extractLsb'_append_extractLsb'⟩

/-! ### The statements -/

/-- Settles O37: HI:LO is the whole 64-bit pattern of the product, in which no bit of the exact product is lost. -/
theorem multiplyGivesExactProduct : Obligations.MultiplyGivesExactProduct := by
  refine ⟨?multWord, ?multuWord, fun rs rt s => ⟨?mult, ?multu⟩⟩
  case multWord | multuWord => exact decodesFunct_of_fields fun _ => rfl
  case mult =>
    obtain ⟨hi, lo, hwrites, hproduct⟩ :=
      writeProduct_writesHalvesOf s (BitVec.ofInt 64 ((s.reg rs).toInt * (s.reg rt).toInt))
    exact ⟨hi, lo, hwrites, hproduct ▸ toInt_ofInt_mul _ _⟩
  case multu =>
    obtain ⟨hi, lo, hwrites, hproduct⟩ :=
      writeProduct_writesHalvesOf s (BitVec.ofNat 64 ((s.reg rs).toNat * (s.reg rt).toNat))
    exact ⟨hi, lo, hwrites, hproduct ▸ toNat_ofNat_mul _ _⟩

/-- Settles O42: a move from HI or LO is a register write; a move to one of them is a write of the pair that gives the
other its own value back. -/
theorem hiLoMoves : Obligations.HiLoMoves := by
  refine ⟨?mfhiWord, ?mthiWord, ?mfloWord, ?mtloWord, fun r s => ⟨?mfhi, ?mflo, ?mthi, ?mtlo⟩⟩
  case mfhiWord | mthiWord | mfloWord | mtloWord => exact decodesFunct_of_fields fun _ => rfl
  case mfhi | mflo => exact writeAndAdvance_writesReg s r _
  case mthi => exact writeHiLoAndAdvance_writesHiLo s (s.reg r) s.lo
  case mtlo => exact writeHiLoAndAdvance_writesHiLo s s.hi (s.reg r)

end Sys2Proof.Machine
end

section
/-! PROOFS. The conditional branches (44_branch.md R171 to R176): the shared facts (encoding by op and by rt, conditions,
branch target), then the statements. -/

namespace Sys2Proof.Machine

/-! ### Encoding: the words of one op -/

/-- The op selects the arm of `decodeFields`, with every other field still the word's own (30_encoding.md R74). -/
theorem decodeWord_of_op {op : BitVec 6} {w : Word} (h : opOf w = op) :
    decodeWord w = decodeFields { fieldsOf w with op := op } := by
  have hfields : fieldsOf w = { fieldsOf w with op := op } := by simp only [fieldsOf, h]
  rw [decodeWord, ← hfields]

theorem decodesOp_of_fields {op : BitVec 6} {mk : Word → Instr}
    (h : ∀ w : Word, decodeFields { fieldsOf w with op := op } = .instr (mk w)) : DecodesOp op mk :=
  fun w hop => (decodeWord_of_op hop).trans (h w)

/-- Under op 0x01 the rt field alone selects the arm of `decodeRegimm` (R76). -/
theorem decodesRegimm_of_fields {rt : BitVec 5} {mk : Word → Instr}
    (h : ∀ w : Word, decodeRegimm { fieldsOf w with op := 0x01#6, rt := indexOfField rt } = .instr (mk w)) :
    DecodesRegimm rt mk := by
  intro w hop hrt
  have hfields : { fieldsOf w with op := 0x01#6 } = { fieldsOf w with op := 0x01#6, rt := indexOfField rt } := by
    simp only [fieldsOf, rtOf, hrt]
  calc decodeWord w = decodeRegimm { fieldsOf w with op := 0x01#6 } := decodeWord_of_op hop
    _ = .instr (mk w) := by rw [hfields, h w]

/-- An op whose operand field must be 0: the index of the field is 0 exactly where its bits are (R78). -/
theorem decodesOpWithZero_of_fields {op : BitVec 6} {field : Word → BitVec 5} {m : Illegal} {mk : Word → Instr}
    (h : ∀ w : Word, decodeFields { fieldsOf w with op := op } = legalOr (indexOfField (field w) == 0) m (mk w)) :
    DecodesOpWithZero op field m mk := by
  intro w hop
  have hzero : (indexOfField (field w) == 0) = true ↔ field w = 0#5 :=
    beq_iff_eq.trans (indexOfField_inj (b := 0#5))
  rw [decodeWord_of_op hop, h w, legalOr, if_congr hzero rfl rfl]

/-! ### Conditions -/

theorem isNegative_eq_signBit (a : Word) : isNegative a = a.getLsbD 31 :=
  BitVec.msb_eq_toInt.symm.trans a.msb_eq_getLsbD_last

theorem isNonNegative_iff_not_signBit (a : Word) : isNonNegative a = true ↔ ¬ a.getLsbD 31 = true := by
  rw [← isNegative_eq_signBit, isNonNegative, isNegative, decide_eq_true_iff, decide_eq_true_iff, Int.not_lt]

/-! ### Branches under the rules' own conditions and target -/

/-- R170: the target of a taken branch, as an integer formula. -/
theorem branchTarget_eq_ofInt (s : State) (imm16 : BitVec 16) :
    branchTarget s imm16 = s.pc + 4#32 + BitVec.ofInt 32 (4 * imm16.toInt) := by
  rw [← toInt_branchDisp, BitVec.ofInt_toInt, branchTarget, State.nextPc_eq]

section
variable {s : State} {imm16 : BitVec 16} {cond : Bool} {p : Prop} [Decidable p]

theorem branchIf_goesTo_of_iff (h : cond = true ↔ p) :
    GoesTo (branchIf s cond imm16) s
      (if p then s.pc + 4#32 + BitVec.ofInt 32 (4 * imm16.toInt) else s.pc + 4#32) := by
  rw [← if_congr h (branchTarget_eq_ofInt s imm16) rfl]
  exact branchIf_goesTo s cond imm16

/-- The same for a branch on the negation of `p`, which the rules write with the branch not taken first. -/
theorem branchIf_goesTo_of_iff_not (h : cond = true ↔ ¬ p) :
    GoesTo (branchIf s cond imm16) s
      (if p then s.pc + 4#32 else s.pc + 4#32 + BitVec.ofInt 32 (4 * imm16.toInt)) := by
  rw [← ite_not]
  exact branchIf_goesTo_of_iff h

end

/-- R173: BLEZ is legal exactly where rt is 0. -/
theorem exec_blez (rs rt : Reg) (imm16 : BitVec 16) (s : State) :
    exec (.blez rs rt imm16) s =
      if rt = 0 then branchIf s (isNonPositive (s.reg rs)) imm16 else execIllegal .blez s := ite_not ..

/-- R174: BGTZ is legal exactly where rt is 0. -/
theorem exec_bgtz (rs rt : Reg) (imm16 : BitVec 16) (s : State) :
    exec (.bgtz rs rt imm16) s =
      if rt = 0 then branchIf s (isPositive (s.reg rs)) imm16 else execIllegal .bgtz s := ite_not ..

/-! ### The statements -/

/-- Settles O46: the two conditions are equality and its negation. -/
theorem branchesOnEquality : Obligations.BranchesOnEquality := by
  refine ⟨?beqWord, ?bneWord, fun rs rt imm16 s => ⟨?beq, ?bne⟩⟩
  case beqWord | bneWord => exact decodesOp_of_fields fun _ => rfl
  case beq => exact branchIf_goesTo_of_iff beq_iff_eq
  case bne => exact branchIf_goesTo_of_iff_not bne_iff_ne

/-- Settles O47: with rt = 0 a branch on a signed comparison, otherwise the illegal form. -/
theorem branchesAgainstZero : Obligations.BranchesAgainstZero := by
  refine ⟨?blezWord, ?bgtzWord, fun s => ⟨?blezIllegal, ?bgtzIllegal⟩, fun rs rt imm16 s => ?effect⟩
  case blezWord | bgtzWord => exact decodesOpWithZero_of_fields fun _ => rfl
  case blezIllegal | bgtzIllegal => exact execIllegal_reportsOnly _ s
  case effect =>
    by_cases hrt : rt = 0
    · simp only [exec_blez, exec_bgtz, if_pos hrt]
      exact ⟨branchIf_goesTo_of_iff decide_eq_true_iff, branchIf_goesTo_of_iff decide_eq_true_iff⟩
    · simp only [exec_blez, exec_bgtz, if_neg hrt]
      exact ⟨execIllegal_reportsOnly _ s, execIllegal_reportsOnly _ s⟩

/-- Settles O48: a word is negative as a signed integer exactly where its sign bit is set. -/
theorem branchesOnSign : Obligations.BranchesOnSign := by
  refine ⟨?bltzWord, ?bgezWord, fun rs imm16 s => ⟨?bltz, ?bgez⟩⟩
  case bltzWord | bgezWord => exact decodesRegimm_of_fields fun _ => rfl
  case bltz => exact branchIf_goesTo_of_iff (Bool.eq_iff_iff.mp (isNegative_eq_signBit _))
  case bgez => exact branchIf_goesTo_of_iff_not (isNonNegative_iff_not_signBit _)

end Sys2Proof.Machine
end

section
/-! PROOFS. The jumps (45_jump.md R191 to R194): each reads its target on the state the instruction started from, before
the link is written. -/

namespace Sys2Proof.Machine

/-- Settles O50: the target is put together from the jump's own PC (R70), which the link leaves as it is. -/
theorem jumpsToTarget : Obligations.JumpsToTarget := by
  refine ⟨?jWord, ?jalWord, fun target26 s => ?effect⟩
  case jWord | jalWord => exact decodesOp_of_fields fun _ => rfl
  case effect =>
    rw [← jumpTarget_eq_append]
    exact ⟨jumpTo_goesTo s _, setReg_jumpTo_writes s linkReg s.nextPc _⟩

/-- Settles O51: JALR's target is `s.reg rs` of the state before the link, so rd = rs needs no case of its own. -/
theorem jumpsToRegister : Obligations.JumpsToRegister := by
  refine ⟨?jrWord, ?jalrWord, fun rd rs s => ⟨?jr, ?jalr⟩⟩
  case jrWord | jalrWord => exact decodesFunct_of_fields fun _ => rfl
  case jr => exact jumpTo_goesTo s (s.reg rs)
  case jalr => exact setReg_jumpTo_writes s rd s.nextPc (s.reg rs)

end Sys2Proof.Machine
end

section
/-! PROOFS. The system call (46_syscall.md R200): its two outcomes, each told apart by the whole of REGS[2]. -/

namespace Sys2Proof.Machine

theorem exec_syscall_of_exit {s : State} (h : s.reg 2 = 0x0000000a#32) : exec .syscall s = .next s.clearRun := if_pos h

theorem exec_syscall_of_ne_exit {s : State} (h : s.reg 2 ≠ 0x0000000a#32) : exec .syscall s = s.advance := if_neg h

/-- Settles O52: exit is `clearRun`, which keeps all but the run flag and run_clear; any other service is `advance`. -/
theorem systemCall : Obligations.SystemCall := by
  refine ⟨decodesFunct_of_fields fun _ => rfl, fun s => ?effect⟩
  case effect =>
    split
    next hexit =>
      exact ⟨s.clearRun, exec_syscall_of_exit hexit, State.clearRun_run s, State.clearRun_pc s, State.clearRun_reg s,
        ⟨State.clearRun_hi s, State.clearRun_lo s⟩, keepsMemory_of_eq rfl rfl rfl, State.clearRun_cfg s,
        State.clearRun_out s⟩
    next hother =>
      rw [exec_syscall_of_ne_exit hother]
      exact advance_goesTo s

end Sys2Proof.Machine
end

section
/-! PROOFS. Decoder and encoder (30_encoding.md sections 4 and 5): each undoes the other up to the ignored fields, and
which words are no instruction. -/

namespace Sys2Proof

/-! ### Decoding an encoded word -/

section
variable (rs rt rd : Reg) (shamt : Shamt) (funct op : BitVec 6) (imm16 : BitVec 16) (target26 : BitVec 26)

theorem fieldsOf_encodeR :
    fieldsOf (encodeR rs rt rd shamt funct) =
      { fieldsOf (encodeR rs rt rd shamt funct) with
        op := 0x00#6, rs := rs, rt := rt, rd := rd, shamt := shamt, funct := funct } := by simp [fieldsOf]

theorem fieldsOf_encodeI :
    fieldsOf (encodeI op rs rt imm16) =
      { fieldsOf (encodeI op rs rt imm16) with op := op, rs := rs, rt := rt, imm16 := imm16 } := by simp [fieldsOf]

theorem fieldsOf_encodeJ :
    fieldsOf (encodeJ op target26) = { fieldsOf (encodeJ op target26) with op := op, target26 := target26 } := by
  simp [fieldsOf]

end

/-- R74 to R78: the decoder reads back the numbers and the operands that the encoder writes. -/
theorem decodeWord_encode {i : Instr} (hwf : i.wf = true) : decodeWord (encode i) = .instr i := by
  cases i with
  | sll | srl | sra | sllv | srlv | srav | jr | jalr | mfhi | mthi | mflo | mtlo | mult | multu | div | divu | add
  | addu | sub | subu | and | or | xor | nor | slt | sltu | syscall => exact congrArg decodeFields (fieldsOf_encodeR ..)
  | addi | addiu | andi | ori | xori | beq | bne | bltz | bgez | bltzal | bgezal | lb | lh | lw | lbu | lhu | sb | sh
  | sw => exact congrArg decodeFields (fieldsOf_encodeI ..)
  | j | jal => exact congrArg decodeFields (fieldsOf_encodeJ ..)
  | lui rt rs imm16 =>
    obtain rfl : rs = 0 := beq_iff_eq.mp hwf
    exact congrArg decodeFields (fieldsOf_encodeI ..)
  | blez rs rt imm16 | bgtz rs rt imm16 =>
    obtain rfl : rt = 0 := beq_iff_eq.mp hwf
    exact congrArg decodeFields (fieldsOf_encodeI ..)

theorem decodeBytes_bytesOfWord (w : Word) : decodeBytes (bytesOfWord w) = some (decodeWord w, []) := by
  rw [bytesOfWord, decodeBytes, wordOfBytes_byteOfWord]

/-- Settles O5: the bytes of a word decode as the word does. -/
theorem decodeInvertsEncode : Obligations.DecodeInvertsEncode := by
  intro i hwf
  rw [decodeBytes_bytesOfWord, decodeWord_encode hwf]
  exact ⟨rfl, rfl⟩

/-! ### The fields an instruction reads (R75, R79) -/

/-- Which of the fields rs, rt, rd and shamt of the R-format are read. -/
structure FieldsRead where
  rs : Bool
  rt : Bool
  rd : Bool
  shamt : Bool

/-- R75; the instructions of the other formats have no ignored field. -/
def fieldsRead : Instr → FieldsRead
  | .sll .. | .srl .. | .sra .. => ⟨false, true, true, true⟩
  | .sllv .. | .srlv .. | .srav .. => ⟨true, true, true, false⟩
  | .add .. | .addu .. | .sub .. | .subu .. | .and .. | .or .. | .xor .. | .nor .. | .slt .. | .sltu .. =>
    ⟨true, true, true, false⟩
  | .jr .. | .mthi .. | .mtlo .. => ⟨true, false, false, false⟩
  | .jalr .. => ⟨true, false, true, false⟩
  | .mfhi .. | .mflo .. => ⟨false, false, true, false⟩
  | .mult .. | .multu .. | .div .. | .divu .. => ⟨true, true, false, false⟩
  | .syscall => ⟨false, false, false, false⟩
  | .addi .. | .addiu .. | .andi .. | .ori .. | .xori .. | .lui .. => ⟨true, true, true, true⟩
  | .beq .. | .bne .. | .blez .. | .bgtz .. | .bltz .. | .bgez .. | .bltzal .. | .bgezal .. => ⟨true, true, true, true⟩
  | .j .. | .jal .. => ⟨true, true, true, true⟩
  | .lb .. | .lh .. | .lw .. | .lbu .. | .lhu .. | .sb .. | .sh .. | .sw .. => ⟨true, true, true, true⟩

/-- The mask of a 5-bit field that is read or ignored. -/
def indexMask (reads : Bool) : BitVec 5 := bif reads then 0x1f#5 else 0x00#5

/-- The mask that keeps op and funct, and of the other fields those that are read. -/
def fieldMask (m : FieldsRead) : Word :=
  0x3f#6 ++ indexMask m.rs ++ indexMask m.rt ++ indexMask m.rd ++ indexMask m.shamt ++ 0x3f#6

theorem readMask_eq_fieldMask (i : Instr) : i.readMask = fieldMask (fieldsRead i) := by
  cases i <;> simp only [Instr.readMask, fieldsRead] <;> decide

theorem and_indexMask (x : BitVec 5) (reads : Bool) :
    x &&& indexMask reads = fieldOfIndex (bif reads then indexOfField x else 0) := by
  cases reads
  · exact BitVec.and_zero
  · exact BitVec.and_allOnes

/-- Six fields under six masks, field by field. -/
theorem append_and_append (op op' funct funct' : BitVec 6) (rs rs' rt rt' rd rd' shamt shamt' : BitVec 5) :
    (op ++ rs ++ rt ++ rd ++ shamt ++ funct) &&& (op' ++ rs' ++ rt' ++ rd' ++ shamt' ++ funct') =
      (op &&& op') ++ (rs &&& rs') ++ (rt &&& rt') ++ (rd &&& rd') ++ (shamt &&& shamt') ++ (funct &&& funct') := by
  simp only [BitVec.and_append]

/-- Masking a word clears its ignored fields and keeps the others. -/
theorem and_fieldMask {w : Word} (hop : opOf w = 0x00#6) (m : FieldsRead) :
    w &&& fieldMask m =
      encodeR (bif m.rs then rsOf w else 0) (bif m.rt then rtOf w else 0) (bif m.rd then rdOf w else 0)
        (bif m.shamt then shamtOf w else 0) (functOf w) := by
  have hop' : opOf w &&& 0x3f#6 = 0x00#6 := by rw [hop]; decide
  have hfunct : functOf w &&& 0x3f#6 = functOf w := BitVec.and_allOnes
  have hmasked := append_and_append (opOf w) 0x3f#6 (functOf w) 0x3f#6 (rsBits w) (indexMask m.rs) (rtBits w)
    (indexMask m.rt) (rdBits w) (indexMask m.rd) (shamtBits w) (indexMask m.shamt)
  rw [rFields_append, hop', hfunct, and_indexMask, and_indexMask, and_indexMask, and_indexMask] at hmasked
  exact hmasked

theorem opOf_and_fieldMask (w : Word) (m : FieldsRead) : opOf (w &&& fieldMask m) = opOf w := by
  have hmask : opOf (fieldMask m) = 0x3f#6 := by
    obtain ⟨rs, rt, rd, shamt⟩ := m
    revert rs rt rd shamt
    decide
  calc opOf (w &&& fieldMask m) = opOf w &&& opOf (fieldMask m) := BitVec.extractLsb'_and
    _ = opOf w := by rw [hmask]; exact BitVec.and_allOnes

theorem eq_cond_of_cond_eq {α : Type} {b : Bool} {x y z : α} (h : (bif b then x else z) = y) :
    x = bif b then y else x := by
  cases b
  · rfl
  · exact h

/-- A word that is an R-format encoding under the mask has its op, its funct and the fields the mask reads. -/
theorem fieldsOf_of_and_fieldMask {w : Word} {rs rt rd : Reg} {shamt : Shamt} {funct : BitVec 6} {m : FieldsRead}
    (h : w &&& fieldMask m = encodeR rs rt rd shamt funct) :
    fieldsOf w = { fieldsOf w with
      op := 0x00#6, rs := bif m.rs then rs else rsOf w, rt := bif m.rt then rt else rtOf w,
      rd := bif m.rd then rd else rdOf w, shamt := bif m.shamt then shamt else shamtOf w, funct := funct } := by
  have hop : opOf w = 0x00#6 := by rw [← opOf_and_fieldMask w m, h, opOf_encodeR]
  rw [and_fieldMask hop] at h
  have hrs := eq_cond_of_cond_eq (by simpa using congrArg rsOf h)
  have hrt := eq_cond_of_cond_eq (by simpa using congrArg rtOf h)
  have hrd := eq_cond_of_cond_eq (by simpa using congrArg rdOf h)
  have hshamt := eq_cond_of_cond_eq (by simpa using congrArg shamtOf h)
  have hfunct : functOf w = funct := by simpa using congrArg functOf h
  rw [← hrs, ← hrt, ← hrd, ← hshamt, ← hfunct, ← hop]
  rfl

/-! ### A decoded instruction is its word in every bit that is read -/

/-- The instruction is well formed and its encoding is the word with the ignored fields cleared (R79). -/
def EncodesReadBits (w : Word) (i : Instr) : Prop := i.wf = true ∧ encode i = w &&& i.readMask

section
variable {w : Word} {i : Instr} (hwf : i.wf = true)
include hwf

theorem encodesReadBits_of_encodeR (hop : opOf w = 0x00#6)
    (h : encode i = encodeR (bif (fieldsRead i).rs then rsOf w else 0) (bif (fieldsRead i).rt then rtOf w else 0)
      (bif (fieldsRead i).rd then rdOf w else 0) (bif (fieldsRead i).shamt then shamtOf w else 0) (functOf w)) :
    EncodesReadBits w i :=
  ⟨hwf, by rw [readMask_eq_fieldMask, and_fieldMask hop, h]⟩

theorem encodesReadBits_of_encode_eq (hmask : i.readMask = 0xffffffff#32) (h : encode i = w) : EncodesReadBits w i :=
  ⟨hwf, by rw [hmask, h]; exact BitVec.and_allOnes.symm⟩

theorem encodesReadBits_of_encodeI (hmask : i.readMask = 0xffffffff#32)
    (h : encode i = encodeI (opOf w) (rsOf w) (rtOf w) (imm16Of w)) : EncodesReadBits w i :=
  encodesReadBits_of_encode_eq hwf hmask (h.trans (encodeI_fields w))

theorem encodesReadBits_of_encodeJ (hmask : i.readMask = 0xffffffff#32)
    (h : encode i = encodeJ (opOf w) (target26Of w)) : EncodesReadBits w i :=
  encodesReadBits_of_encode_eq hwf hmask (h.trans (encodeJ_fields w))

end

theorem encodesReadBits_of_decodeFunct {w : Word} {i : Instr} (hop : opOf w = 0x00#6)
    (h : decodeFunct (fieldsOf w) = .instr i) : EncodesReadBits w i := by
  unfold decodeFunct at h
  split at h
  case h_28 => cases h
  all_goals
    rename_i hfunct
    cases h
    exact encodesReadBits_of_encodeR rfl hop (congrArg (encodeR _ _ _ _) hfunct.symm)

theorem encodesReadBits_of_decodeRegimm {w : Word} {i : Instr} (hop : opOf w = 0x01#6)
    (h : decodeRegimm (fieldsOf w) = .instr i) : EncodesReadBits w i := by
  unfold decodeRegimm at h
  split at h
  case h_5 => cases h
  all_goals
    rename_i hrt
    cases h
    have hrt' : rtOf w = indexOfField _ := congrArg indexOfField hrt
    refine encodesReadBits_of_encodeI rfl rfl ?_
    rw [hop, hrt']
    rfl

theorem legalOr_eq_instr_iff {ok : Bool} {m : Illegal} {i j : Instr} :
    legalOr ok m i = .instr j ↔ ok = true ∧ i = j := by cases ok <;> simp [legalOr]

/-- R73 to R79: the inverse of `decodeWord_encode`, op by op. -/
theorem encodesReadBits_of_decodeWord {w : Word} {i : Instr} (h : decodeWord w = .instr i) : EncodesReadBits w i := by
  unfold decodeWord decodeFields at h
  split at h
  case h_1 hop => exact encodesReadBits_of_decodeFunct hop h
  case h_2 hop => exact encodesReadBits_of_decodeRegimm hop h
  case h_3 hop | h_4 hop =>
    cases h
    exact encodesReadBits_of_encodeJ rfl rfl (congrArg (encodeJ · _) hop.symm)
  case h_7 hop | h_8 hop | h_14 hop =>
    obtain ⟨hzero, rfl⟩ := legalOr_eq_instr_iff.mp h
    exact encodesReadBits_of_encodeI hzero rfl (congrArg (encodeI · _ _ _) hop.symm)
  case h_23 => cases h
  all_goals
    rename_i hop
    cases h
    exact encodesReadBits_of_encodeI rfl rfl (congrArg (encodeI · _ _ _) hop.symm)

/-- Settles O6: `EncodesReadBits` is its conclusion. -/
theorem encodeInvertsDecode : Obligations.EncodeInvertsDecode := fun _ _ h => encodesReadBits_of_decodeWord h

/-- R79: the bits under the mask decide what a word decodes to, whatever stands in the ignored fields. -/
theorem decodeWord_of_encodesReadBits {w : Word} {i : Instr} (h : EncodesReadBits w i) : decodeWord w = .instr i := by
  obtain ⟨hwf, hword⟩ := h
  cases i with
  | sll | srl | sra | sllv | srlv | srav | jr | jalr | mfhi | mthi | mflo | mtlo | mult | multu | div | divu | add
  | addu | sub | subu | and | or | xor | nor | slt | sltu | syscall =>
    rw [readMask_eq_fieldMask] at hword
    exact congrArg decodeFields (fieldsOf_of_and_fieldMask hword.symm)
  | _ =>
    have hw : w = encode _ := BitVec.and_allOnes.symm.trans hword.symm
    rw [hw, decodeWord_encode hwf]

/-- Settles O7: the other word has the same bits under the mask, and these alone decide what a word decodes to. -/
theorem ignoredFieldsDoNotMatter : Obligations.IgnoredFieldsDoNotMatter := by
  intro w w' i h hagree
  obtain ⟨hwf, hword⟩ := encodesReadBits_of_decodeWord h
  exact decodeWord_of_encodesReadBits ⟨hwf, hword.trans hagree.symm⟩

/-! ### The words that are no instruction (R77, R78) -/

/-- The op numbers of R74 to R76. -/
def opNumbers : List (BitVec 6) :=
  [0x00#6, 0x01#6, 0x02#6, 0x03#6, 0x04#6, 0x05#6, 0x06#6, 0x07#6, 0x08#6, 0x09#6, 0x0c#6, 0x0d#6, 0x0e#6, 0x0f#6,
    0x20#6, 0x21#6, 0x23#6, 0x24#6, 0x25#6, 0x28#6, 0x29#6, 0x2b#6]

/-- The funct numbers of R75. -/
def functNumbers : List (BitVec 6) :=
  [0x00#6, 0x02#6, 0x03#6, 0x04#6, 0x06#6, 0x07#6, 0x08#6, 0x09#6, 0x0c#6, 0x10#6, 0x11#6, 0x12#6, 0x13#6, 0x18#6,
    0x19#6, 0x1a#6, 0x1b#6, 0x20#6, 0x21#6, 0x22#6, 0x23#6, 0x24#6, 0x25#6, 0x26#6, 0x27#6, 0x2a#6, 0x2b#6]

/-- The rt numbers of R76. -/
def regimmNumbers : List (BitVec 5) := [0x00#5, 0x01#5, 0x10#5, 0x11#5]

theorem legalOr_ne_unknown (ok : Bool) (m : Illegal) (i : Instr) (u : Unknown) : legalOr ok m i ≠ .unknown u := by
  cases ok <;> simp [legalOr]

theorem legalOr_eq_illegal_iff {ok : Bool} {m m' : Illegal} {i : Instr} :
    legalOr ok m i = .illegal m' ↔ ok = false ∧ m = m' := by cases ok <;> simp [legalOr]

theorem decodeFunct_eq_unknown_iff (f : Fields) (u : Unknown) :
    decodeFunct f = .unknown u ↔ u = .funct f.funct ∧ f.funct ∉ functNumbers := by
  unfold decodeFunct
  split
  case h_28 => simp_all [functNumbers, eq_comm (b := u)]
  all_goals
    rename_i hfunct
    simp [hfunct, functNumbers]

theorem decodeRegimm_eq_unknown_iff (f : Fields) (u : Unknown) :
    decodeRegimm f = .unknown u ↔ u = .regimm (fieldOfIndex f.rt) ∧ fieldOfIndex f.rt ∉ regimmNumbers := by
  unfold decodeRegimm
  split
  case h_5 => simp_all [regimmNumbers, eq_comm (b := u)]
  all_goals
    rename_i hrt
    simp [hrt, regimmNumbers]

theorem decodeFields_eq_unknown_iff (f : Fields) (u : Unknown) :
    decodeFields f = .unknown u ↔
      (u = .op f.op ∧ f.op ∉ opNumbers) ∨ (f.op = 0x00#6 ∧ decodeFunct f = .unknown u) ∨
        (f.op = 0x01#6 ∧ decodeRegimm f = .unknown u) := by
  unfold decodeFields
  split
  case h_23 => simp_all [opNumbers, eq_comm (b := u)]
  all_goals
    rename_i hop
    simp [hop, opNumbers, legalOr_ne_unknown]

/-- Settles O8: the default arm of each of the three maps. -/
theorem unlistedSelectorsAreUnrecognised : Obligations.UnlistedSelectorsAreUnrecognised := by
  intro w u
  rw [decodeWord, decodeFields_eq_unknown_iff, decodeFunct_eq_unknown_iff, decodeRegimm_eq_unknown_iff,
    and_left_comm (a := (fieldsOf w).op = 0x00#6), and_left_comm (a := (fieldsOf w).op = 0x01#6)]
  rfl

theorem decodeFunct_ne_illegal (f : Fields) (m : Illegal) : decodeFunct f ≠ .illegal m := by
  unfold decodeFunct
  split <;> nofun

theorem decodeRegimm_ne_illegal (f : Fields) (m : Illegal) : decodeRegimm f ≠ .illegal m := by
  unfold decodeRegimm
  split <;> nofun

theorem decodeFields_eq_illegal_iff (f : Fields) (m : Illegal) :
    decodeFields f = .illegal m ↔
      (m = .lui ∧ f.op = 0x0f#6 ∧ f.rs ≠ 0) ∨ (m = .blez ∧ f.op = 0x06#6 ∧ f.rt ≠ 0) ∨
        (m = .bgtz ∧ f.op = 0x07#6 ∧ f.rt ≠ 0) := by
  unfold decodeFields
  split
  case h_23 => simp_all
  all_goals
    rename_i hop
    simp [hop, legalOr_eq_illegal_iff, decodeFunct_ne_illegal, decodeRegimm_ne_illegal, and_comm, eq_comm (b := m)]

theorem indexOfField_eq_zero_iff (b : BitVec 5) : indexOfField b = 0 ↔ b = 0#5 := indexOfField_inj (b := 0#5)

/-- Settles O9: `legalOr` stands in three arms of the op map. -/
theorem threeIllegalCombinations : Obligations.ThreeIllegalCombinations := by
  intro w m
  rw [decodeWord, decodeFields_eq_illegal_iff]
  simp only [fieldsOf, rsOf, rtOf, ne_eq, indexOfField_eq_zero_iff]

/-- Settles O4, word by word. -/
theorem writtenOutWordsDecode : Obligations.WrittenOutWordsDecode := by
  unfold Obligations.WrittenOutWordsDecode
  decide

end Sys2Proof
end

section
/-! PROOFS. The reference memory (20_memory.md R45 to R47): the contract, its words as bytes, its canonical form. -/

namespace Sys2Proof.Machine

/-! ### Words as four bytes -/

/-- Byte `k` of a word written at `a` stands at `a + k`, the wrap of the address space included. -/
theorem Memory.readByte_writeWord_inside (m : Memory) (a v : Word) {k : Nat} (h : k < 4) :
    (m.writeWord a v).readByte (a + BitVec.ofNat 32 k) = byteOfWord v k := by
  interval_cases k <;> simp

/-- Settles O27: the reads and writes of the port are those of the contents, byte by byte. -/
theorem wordsAreFourBytesLittleEndian : Obligations.WordsAreFourBytesLittleEndian := by
  intro s a v href
  rw [State.readWord_of_reference href, State.writeWord_mem_of_reference href]
  exact ⟨s.mem.extractByte_readWord a, fun k hk => s.mem.readByte_writeWord_inside a v hk,
    s.mem.readByte_writeWord_outside a v⟩

/-! ### The contract -/

theorem byteAt_of_reference {s : State} (h : s.cfg.mem = .reference) (a : Word) : s.byteAt a = s.mem.readByte a := by
  rw [State.byteAt, State.readWord_of_reference h, Memory.lowByte_readWord]

theorem byteAt_writeWord_of_reference {s : State} (h : s.cfg.mem = .reference) (a v b : Word) :
    (s.writeWord a v).byteAt b = (s.mem.writeWord a v).readByte b := by
  rw [byteAt_of_reference (s := s.writeWord a v) h, State.writeWord_mem_of_reference h]

/-- R43: M1 to M3 on the contents. -/
theorem meetsContract_of_reference {c : Config} (hc : c.mem = .reference) : MeetsContract c where
  total s call hs := State.memFaults_of_reference (hs ▸ hc) call
  m1 s a hs := by
    have href : s.cfg.mem = .reference := hs ▸ hc
    rw [byteAt_of_reference href, byteAt_of_reference href, State.readWord_of_reference href, Memory.lowHalf_readWord]
  m2Byte s a v hs hkeep b := by
    have href : s.cfg.mem = .reference := hs ▸ hc
    rw [State.readWord_of_reference href] at hkeep
    rw [byteAt_writeWord_of_reference href, byteAt_of_reference href, Memory.readByte_writeWord_keepAboveByte hkeep]
  m2Half s a v hs hkeep b := by
    have href : s.cfg.mem = .reference := hs ▸ hc
    rw [State.readWord_of_reference href] at hkeep
    rw [byteAt_writeWord_of_reference href, byteAt_of_reference href, Memory.readByte_writeWord_keepAboveHalf hkeep]
  m3 s a v hs := by
    have href : s.cfg.mem = .reference := hs ▸ hc
    rw [State.readWord_of_reference (s := s.writeWord a v) href, State.writeWord_mem_of_reference href,
      Memory.readWord_writeWord_same]

/-- Settles O26: the contract and the byte, as the two lemmas above state them. -/
theorem referenceMemoryMeetsContract : Obligations.ReferenceMemoryMeetsContract :=
  ⟨fun _ hc => meetsContract_of_reference hc, fun _ a href => byteAt_of_reference href a⟩

/-! ### The canonical form -/

/-- In canonical form the entries are exactly the addresses that do not read as unlisted, with their bytes. -/
theorem Memory.mem_iff_find {m : Memory} (h : m.wf) (c : Host.Cell) :
    c ∈ m ↔ m.find c.1 = c.2 ∧ c.2 ≠ Memory.unlisted := by
  induction m with
  | nil => simp +contextual [eq_comm]
  | cons d m ih =>
    obtain ⟨hrising, hlisted⟩ := h
    obtain ⟨hd, hm⟩ := List.pairwise_cons.mp hrising
    obtain ⟨hdm, hlisted⟩ := List.forall_mem_cons.mp hlisted
    have ih := ih ⟨hm, hlisted⟩
    rw [List.mem_cons, Memory.find_cons]
    split
    next hkey =>
      have hc : c ∉ m := fun hc => (hd c hc).ne hkey
      rw [or_iff_left hc]
      exact ⟨by rintro rfl; exact ⟨rfl, hdm.2⟩, fun h => Prod.ext hkey.symm h.1.symm⟩
    next hkey =>
      have hne : c ≠ d := fun h => hkey (h ▸ rfl)
      rw [or_iff_right hne, ih]

theorem Memory.eq_of_find_eq {m m' : Memory} (h : m.wf) (h' : m'.wf) (hfind : ∀ a < 2 ^ 32, m.find a = m'.find a) :
    m = m' := by
  have hirrefl : Std.Irrefl fun c d : Host.Cell => c.1 < d.1 := ⟨fun c => lt_irrefl c.1⟩
  have hantisymm : Std.Antisymm fun c d : Host.Cell => c.1 < d.1 := ⟨fun _ _ hlt hgt => absurd hgt hlt.asymm⟩
  refine h.1.eq_of_mem_iff h'.1 fun c => ⟨fun hc => ?_, fun hc => ?_⟩
  · have ⟨hlt, _⟩ := h.2 c hc
    rwa [mem_iff_find h', ← hfind c.1 hlt, ← mem_iff_find h]
  · have ⟨hlt, _⟩ := h'.2 c hc
    rwa [mem_iff_find h, hfind c.1 hlt, ← mem_iff_find h']

/-- Settles O28: addresses below 2^32 are those of the 32-bit space. -/
theorem canonicalMemoriesAreEqual : Obligations.CanonicalMemoriesAreEqual := by
  intro m m' h h' hread
  refine Memory.eq_of_find_eq h h' fun a ha => ?_
  have := hread (BitVec.ofNat 32 a)
  rwa [Memory.readByte, Memory.readByte, BitVec.toNat_ofNat, Nat.mod_eq_of_lt ha] at this

end Sys2Proof.Machine
end

section
/-! PROOFS. Loads and stores (47_load_store.md R210 to R219). -/

namespace Sys2Proof.Machine

/-! ### Operands as integer formulas -/

theorem sext16_eq_ofInt (v : BitVec 16) : sext16 v = BitVec.ofInt 32 v.toInt := by
  rw [← toInt_sext16, BitVec.ofInt_toInt]

theorem sext8_eq_ofInt (v : BitVec 8) : sext8 v = BitVec.ofInt 32 v.toInt := by
  rw [← toInt_sext8, BitVec.ofInt_toInt]

theorem zext16_eq_ofNat (v : BitVec 16) : zext16 v = BitVec.ofNat 32 v.toNat := by
  rw [← toNat_zext16, BitVec.ofNat_toNat, BitVec.setWidth_eq]

theorem zext8_eq_ofNat (v : BitVec 8) : zext8 v = BitVec.ofNat 32 v.toNat := by
  rw [← toNat_zext8, BitVec.ofNat_toNat, BitVec.setWidth_eq]

/-- Settles O29: on patterns the sum is modulo 2^32, whichever way the operands are read as integers. -/
theorem effectiveAddress : Obligations.EffectiveAddress := by
  intro s rs imm16
  rw [effAddr, sext16_eq_ofInt, BitVec.ofInt_add, BitVec.ofInt_natCast, BitVec.ofNat_toNat, BitVec.setWidth_eq]

/-! ### Loads -/

section
variable {s : State} {rs : Reg} {imm16 : BitVec 16} (rt : Reg) (h : s.memFaults (.read (effAddr s rs imm16)) = false)
include h

theorem exec_lb_loads :
    Loads (exec (.lb rt rs imm16) s) s rt (BitVec.ofInt 32 (s.byteAt (effAddr s rs imm16)).toInt)
      (effAddr s rs imm16) := by
  rw [← sext8_eq_ofInt]
  exact loadWith_loads (fun w => sext8 (lowByte w)) rt rs imm16 h

theorem exec_lbu_loads :
    Loads (exec (.lbu rt rs imm16) s) s rt (BitVec.ofNat 32 (s.byteAt (effAddr s rs imm16)).toNat)
      (effAddr s rs imm16) := by
  rw [← zext8_eq_ofNat]
  exact loadWith_loads (fun w => zext8 (lowByte w)) rt rs imm16 h

theorem exec_lh_loads :
    Loads (exec (.lh rt rs imm16) s) s rt
      (BitVec.ofInt 32 ((s.readWord (effAddr s rs imm16)).extractLsb' 0 16).toInt) (effAddr s rs imm16) := by
  rw [← sext16_eq_ofInt]
  exact loadWith_loads (fun w => sext16 (lowHalf w)) rt rs imm16 h

theorem exec_lhu_loads :
    Loads (exec (.lhu rt rs imm16) s) s rt
      (BitVec.ofNat 32 ((s.readWord (effAddr s rs imm16)).extractLsb' 0 16).toNat) (effAddr s rs imm16) := by
  rw [← zext16_eq_ofNat]
  exact loadWith_loads (fun w => zext16 (lowHalf w)) rt rs imm16 h

theorem exec_lw_loads :
    Loads (exec (.lw rt rs imm16) s) s rt (s.readWord (effAddr s rs imm16)) (effAddr s rs imm16) :=
  loadWith_loads (fun w => w) rt rs imm16 h

end

/-- Settles O53: on the reference memory the read is answered, with the byte of the contents. -/
theorem loadBytes : Obligations.LoadBytes := by
  refine ⟨?lbWord, ?lbuWord, fun rt _ _ _ h => ⟨exec_lb_loads rt h, exec_lbu_loads rt h⟩,
    fun rt rs imm16 s href => ?reference⟩
  case lbWord | lbuWord => exact decodesOp_of_fields fun _ => rfl
  case reference =>
    have hanswer := State.memFaults_of_reference href (.read (effAddr s rs imm16))
    rw [← byteAt_of_reference href]
    exact ⟨exec_lb_loads rt hanswer, exec_lbu_loads rt hanswer⟩

theorem lowHalf_readWord_of_reference {s : State} (h : s.cfg.mem = .reference) (a : Word) :
    (s.readWord a).extractLsb' 0 16 = s.mem.readByte (a + 1#32) ++ s.mem.readByte a := by
  rw [State.readWord_of_reference h, Memory.lowHalf_readWord]

/-- Settles O54: the half of the reference memory is M1's. -/
theorem loadHalves : Obligations.LoadHalves := by
  refine ⟨?lhWord, ?lhuWord, fun rt _ _ _ h => ⟨exec_lh_loads rt h, exec_lhu_loads rt h⟩,
    fun rt rs imm16 s href => ?reference⟩
  case lhWord | lhuWord => exact decodesOp_of_fields fun _ => rfl
  case reference =>
    have hanswer := State.memFaults_of_reference href (.read (effAddr s rs imm16))
    rw [← lowHalf_readWord_of_reference href]
    exact ⟨exec_lh_loads rt hanswer, exec_lhu_loads rt hanswer⟩

/-- Settles O55: the word of the reference memory is its four bytes by definition (R45). -/
theorem loadWord : Obligations.LoadWord := by
  refine ⟨decodesOp_of_fields fun _ => rfl, fun rt _ _ _ h => exec_lw_loads rt h, fun rt rs imm16 s href => ?reference⟩
  case reference =>
    have hload := exec_lw_loads rt (State.memFaults_of_reference href (.read (effAddr s rs imm16)))
    rwa [State.readWord_of_reference href] at hload

/-! ### Stores -/

/-- A word write of which the low `n` bytes are those of `x` and the others as they were. -/
theorem WritesWord.stores {o : Result} {s : State} {a v x : Word} {n : Nat} {calls : List MemCall}
    (h : WritesWord o s a v calls)
    (hin : ∀ k, k < n → (s.writeWord a v).byteAt (a + BitVec.ofNat 32 k) = x.extractLsb' (8 * k) 8)
    (hout : KeepsBytesOutside a n s (s.writeWord a v)) : Stores o s a n x calls := by
  obtain ⟨t, ho, hpc, ⟨hbytes, -, -⟩, hkeep⟩ := h
  exact ⟨t, ho, hpc, fun k hk => (hbytes _).trans (hin k hk), fun b hb => (hbytes b).trans (hout b hb), hkeep⟩

theorem exec_sb_writesWord {s : State} {rt rs : Reg} {imm16 : BitVec 16} {a v : Word} (ha : a = effAddr s rs imm16)
    (hv : v = (s.readWord a).extractLsb' 8 24 ++ (s.reg rt).extractLsb' 0 8) (hr : s.memFaults (.read a) = false)
    (hw : s.memFaults (.write a v) = false) :
    WritesWord (exec (.sb rt rs imm16) s) s a v [.read a, .write a v] := by
  rw [← mergeByte_eq] at hv
  subst ha hv
  exact storeMerged_writesWord mergeByte rt rs imm16 hr hw

theorem exec_sh_writesWord {s : State} {rt rs : Reg} {imm16 : BitVec 16} {a v : Word} (ha : a = effAddr s rs imm16)
    (hv : v = (s.readWord a).extractLsb' 16 16 ++ (s.reg rt).extractLsb' 0 16) (hr : s.memFaults (.read a) = false)
    (hw : s.memFaults (.write a v) = false) :
    WritesWord (exec (.sh rt rs imm16) s) s a v [.read a, .write a v] := by
  rw [← mergeHalf_eq] at hv
  subst ha hv
  exact storeMerged_writesWord mergeHalf rt rs imm16 hr hw

section
variable {s : State} (hcontract : MeetsContract s.cfg) (a x : Word)
include hcontract

/-- M2 for the word SB writes back. -/
theorem byteAt_writeWord_byte (b : Word) :
    (s.writeWord a ((s.readWord a).extractLsb' 8 24 ++ x.extractLsb' 0 8)).byteAt b =
      if b = a then x.extractLsb' 0 8 else s.byteAt b := by
  rw [hcontract.m2Byte s a _ rfl BitVec.extractLsb'_append_eq_left b]
  congr 1
  exact BitVec.extractLsb'_append_eq_right

/-- M2 for the word SH writes back. -/
theorem byteAt_writeWord_half (b : Word) :
    (s.writeWord a ((s.readWord a).extractLsb' 16 16 ++ x.extractLsb' 0 16)).byteAt b =
      if b = a then x.extractLsb' 0 8 else if b = a + 1#32 then x.extractLsb' 8 8 else s.byteAt b := by
  rw [hcontract.m2Half s a _ rfl BitVec.extractLsb'_append_eq_left b]
  congr 1
  · exact (BitVec.extractLsb'_append_eq_of_add_le (by decide)).trans (BitVec.extractLsb'_extractLsb'_of_le (by decide))
  · congr 1
    exact (BitVec.extractLsb'_append_eq_of_add_le (by decide)).trans (BitVec.extractLsb'_extractLsb'_of_le (by decide))

theorem exec_sb_stores {rt rs : Reg} {imm16 : BitVec 16} {v : Word} (ha : a = effAddr s rs imm16)
    (hv : v = (s.readWord a).extractLsb' 8 24 ++ (s.reg rt).extractLsb' 0 8) :
    Stores (exec (.sb rt rs imm16) s) s a 1 (s.reg rt) [.read a, .write a v] := by
  have hbyte := byteAt_writeWord_byte hcontract a (s.reg rt)
  refine (exec_sb_writesWord ha hv (hcontract.total _ _ rfl) (hcontract.total _ _ rfl)).stores ?_ ?_
  · intro k hk
    obtain rfl : k = 0 := by omega
    rw [hv]
    simpa using hbyte a
  · intro b hb
    rw [hv, hbyte, if_neg (by simpa using hb 0 (by omega))]

theorem exec_sh_stores {rt rs : Reg} {imm16 : BitVec 16} {v : Word} (ha : a = effAddr s rs imm16)
    (hv : v = (s.readWord a).extractLsb' 16 16 ++ (s.reg rt).extractLsb' 0 16) :
    Stores (exec (.sh rt rs imm16) s) s a 2 (s.reg rt) [.read a, .write a v] := by
  have hhalf := byteAt_writeWord_half hcontract a (s.reg rt)
  refine (exec_sh_writesWord ha hv (hcontract.total _ _ rfl) (hcontract.total _ _ rfl)).stores ?_ ?_
  · intro k hk
    rw [hv, hhalf]
    interval_cases k <;> simp
  · intro b hb
    rw [hv, hhalf, if_neg (by simpa using hb 0 (by omega)), if_neg (hb 1 (by omega))]

end

/-- Settles O56: the reference memory is one of the collaborators that meet the contract. -/
theorem storeByteAndHalf : Obligations.StoreByteAndHalf := by
  have hcontract : ∀ {s : State}, s.cfg.mem = .reference ∨ MeetsContract s.cfg → MeetsContract s.cfg :=
    fun h => h.elim meetsContract_of_reference id
  refine ⟨?sbWord, ?shWord, fun rt rs imm16 s a v ha hv => ⟨exec_sb_writesWord ha hv, fun h => ?sb⟩,
    fun rt rs imm16 s a v ha hv => ⟨exec_sh_writesWord ha hv, fun h => ?sh⟩⟩
  case sbWord | shWord => exact decodesOp_of_fields fun _ => rfl
  case sb => exact exec_sb_stores (hcontract h) a ha hv
  case sh => exact exec_sh_stores (hcontract h) a ha hv

/-- Settles O57: on the reference memory the write is answered, and changes the four bytes of the contents. -/
theorem storeWord : Obligations.StoreWord := by
  refine ⟨decodesOp_of_fields fun _ => rfl, fun rt rs imm16 s h => execSw_writesWord rt rs imm16 h,
    fun rt rs imm16 s href => ?reference⟩
  case reference =>
    refine (execSw_writesWord rt rs imm16 (State.memFaults_of_reference href _)).stores (fun k hk => ?_) fun b hb => ?_
    · rw [byteAt_writeWord_of_reference href, Memory.readByte_writeWord_inside _ _ _ hk, byteOfWord]
    · rw [byteAt_writeWord_of_reference href, Memory.readByte_writeWord_outside _ _ _ _ hb, byteAt_of_reference href]

/-! ### A load after a store -/

theorem Loads.exists_reg_eq {o : Result} {s : State} {rt : Reg} {v a : Word} (h : Loads o s rt v a) :
    ∃ u, o = .next u ∧ u.reg rt = v := by
  obtain ⟨u, ho, -, hv, -⟩ := h
  exact ⟨u, ho, hv⟩

/-- Settles O30: the state a store leaves is on the same collaborator, which answers the load's read with the unit that
was stored: a byte by M2, a half by M2 and M1, a word by M3. -/
theorem storeLoadRoundTrip : Obligations.StoreLoadRoundTrip := by
  intro rt rs rt' rs' imm16 imm16' s hcontract
  refine ⟨?byte, ?half, ?word⟩
  case byte =>
    obtain ⟨t, ho, -, hin, -, -, -, ⟨-, hcfg⟩, -⟩ :=
      exec_sb_stores hcontract _ (rt := rt) (rs := rs) (imm16 := imm16) rfl rfl
    refine ⟨t, ho, fun haddr => ?_⟩
    have hbyte : t.byteAt (effAddr t rs' imm16') = (s.reg rt).extractLsb' 0 8 := by
      simpa [haddr] using hin 0 (by omega)
    have hanswer := hcontract.total t (.read (effAddr t rs' imm16')) hcfg
    rw [← hbyte]
    exact ⟨(exec_lb_loads rt' hanswer).exists_reg_eq, (exec_lbu_loads rt' hanswer).exists_reg_eq⟩
  case half =>
    obtain ⟨t, ho, -, hin, -, -, -, ⟨-, hcfg⟩, -⟩ :=
      exec_sh_stores hcontract _ (rt := rt) (rs := rs) (imm16 := imm16) rfl rfl
    refine ⟨t, ho, fun haddr => ?_⟩
    have hhalf : (t.readWord (effAddr t rs' imm16')).extractLsb' 0 16 = (s.reg rt).extractLsb' 0 16 := by
      have hlow : t.byteAt (effAddr s rs imm16) = (s.reg rt).extractLsb' 0 8 := by simpa using hin 0 (by omega)
      have hhigh : t.byteAt (effAddr s rs imm16 + 1#32) = (s.reg rt).extractLsb' 8 8 := hin 1 (by omega)
      rw [hcontract.m1 t _ hcfg, haddr, hlow, hhigh]
      exact BitVec.extractLsb'_append_extractLsb'_eq_extractLsb' rfl
    have hanswer := hcontract.total t (.read (effAddr t rs' imm16')) hcfg
    rw [← hhalf]
    exact ⟨(exec_lh_loads rt' hanswer).exists_reg_eq, (exec_lhu_loads rt' hanswer).exists_reg_eq⟩
  case word =>
    obtain ⟨t, ho, -, ⟨-, hmem, hwrites⟩, -, -, ⟨-, hcfg⟩, -⟩ :=
      execSw_writesWord rt rs imm16 (hcontract.total s (.write (effAddr s rs imm16) (s.reg rt)) rfl)
    refine ⟨t, ho, fun haddr => ?_⟩
    have hword : t.readWord (effAddr t rs' imm16') = s.reg rt := by
      rw [State.readWord_congr (s := s.writeWord _ _) (congrArg Config.mem hcfg) hmem hwrites, haddr]
      exact hcontract.m3 s _ _ rfl
    have hload := exec_lw_loads rt' (hcontract.total t (.read (effAddr t rs' imm16')) hcfg)
    rw [hword] at hload
    exact hload.exists_reg_eq

end Sys2Proof.Machine
end

section
/-! PROOFS. The immediate instructions (43_immediate.md) and the branches that link (44_branch.md R177, R178). -/

namespace Sys2Proof.Machine

/-! ### Results as the rules' formulas -/

theorem add_sext16_eq_ofInt (x : Word) (imm16 : BitVec 16) :
    x + sext16 imm16 = BitVec.ofInt 32 (x.toInt + imm16.toInt) := by
  rw [BitVec.ofInt_add, BitVec.ofInt_toInt, sext16_eq_ofInt]

theorem word_eq_halves (x : Word) : x.extractLsb' 16 16 ++ x.extractLsb' 0 16 = x :=
  BitVec.extractLsb'_append_extractLsb' (w := 16) (len := 16)

section
variable (x : Word) (imm16 : BitVec 16)

theorem and_zext16_eq_append : x &&& zext16 imm16 = 0x0000#16 ++ (x.extractLsb' 0 16 &&& imm16) := by
  calc x &&& zext16 imm16
      = (x.extractLsb' 16 16 ++ x.extractLsb' 0 16) &&& (0x0000#16 ++ imm16) := by
        rw [word_eq_halves, zext16_eq_append]
    _ = (x.extractLsb' 16 16 &&& 0x0000#16) ++ (x.extractLsb' 0 16 &&& imm16) := BitVec.and_append
    _ = 0x0000#16 ++ (x.extractLsb' 0 16 &&& imm16) := by rw [BitVec.and_zero]

theorem or_zext16_eq_append :
    x ||| zext16 imm16 = x.extractLsb' 16 16 ++ (x.extractLsb' 0 16 ||| imm16) := by
  calc x ||| zext16 imm16
      = (x.extractLsb' 16 16 ++ x.extractLsb' 0 16) ||| (0x0000#16 ++ imm16) := by
        rw [word_eq_halves, zext16_eq_append]
    _ = (x.extractLsb' 16 16 ||| 0x0000#16) ++ (x.extractLsb' 0 16 ||| imm16) := BitVec.or_append
    _ = x.extractLsb' 16 16 ++ (x.extractLsb' 0 16 ||| imm16) := by rw [BitVec.or_zero]

theorem xor_zext16_eq_append :
    x ^^^ zext16 imm16 = x.extractLsb' 16 16 ++ (x.extractLsb' 0 16 ^^^ imm16) := by
  calc x ^^^ zext16 imm16
      = (x.extractLsb' 16 16 ++ x.extractLsb' 0 16) ^^^ (0x0000#16 ++ imm16) := by
        rw [word_eq_halves, zext16_eq_append]
    _ = (x.extractLsb' 16 16 ^^^ 0x0000#16) ++ (x.extractLsb' 0 16 ^^^ imm16) := BitVec.xor_append
    _ = x.extractLsb' 16 16 ++ (x.extractLsb' 0 16 ^^^ imm16) := by rw [BitVec.xor_zero]

end

/-! ### The statements -/

/-- Settles O43: on patterns ADDI and ADDIU are the same sum. -/
theorem addImmediates : Obligations.AddImmediates := by
  refine ⟨?addiWord, ?addiuWord, fun rt rs imm16 s => ⟨?addi, ?addiu⟩⟩
  case addiWord | addiuWord => exact decodesOp_of_fields fun _ => rfl
  case addi | addiu => exact writeAndAdvance_writesReg_of_eq (add_sext16_eq_ofInt _ _)

/-- Settles O44: the zero-extended immediate acts on the low half alone. -/
theorem logicalImmediates : Obligations.LogicalImmediates := by
  refine ⟨?andiWord, ?oriWord, ?xoriWord, fun rt rs imm16 s => ⟨?andi, ?ori, ?xori⟩⟩
  case andiWord | oriWord | xoriWord => exact decodesOp_of_fields fun _ => rfl
  case andi => exact writeAndAdvance_writesReg_of_eq (and_zext16_eq_append _ _)
  case ori => exact writeAndAdvance_writesReg_of_eq (or_zext16_eq_append _ _)
  case xori => exact writeAndAdvance_writesReg_of_eq (xor_zext16_eq_append _ _)

/-- R156: LUI is legal exactly where rs is 0. -/
theorem exec_lui (rt rs : Reg) (imm16 : BitVec 16) (s : State) :
    exec (.lui rt rs imm16) s =
      if rs = 0 then writeAndAdvance s rt (luiConst imm16) else execIllegal .lui s := ite_not ..

/-- Settles O45: with rs = 0 a register write of the constant, otherwise the illegal form. -/
theorem loadUpperImmediate : Obligations.LoadUpperImmediate := by
  refine ⟨decodesOpWithZero_of_fields fun _ => rfl, execIllegal_reportsOnly .lui, fun rt rs imm16 s => ?effect⟩
  case effect =>
    rw [exec_lui]
    split
    · exact writeAndAdvance_writesReg_of_eq (luiConst_eq_append imm16)
    · exact execIllegal_reportsOnly .lui s

section
variable {s : State} {imm16 : BitVec 16} {cond : Bool} {p : Prop} [Decidable p]

theorem linkAndBranchIf_writes_of_iff (h : cond = true ↔ p) :
    WritesRegAndGoes (linkAndBranchIf s cond imm16) s 31 (s.pc + 4#32)
      (if p then s.pc + 4#32 + BitVec.ofInt 32 (4 * imm16.toInt) else s.pc + 4#32) := by
  rw [← if_congr h (branchTarget_eq_ofInt s imm16) rfl]
  exact linkAndBranchIf_writes s cond imm16

theorem linkAndBranchIf_writes_of_iff_not (h : cond = true ↔ ¬ p) :
    WritesRegAndGoes (linkAndBranchIf s cond imm16) s 31 (s.pc + 4#32)
      (if p then s.pc + 4#32 else s.pc + 4#32 + BitVec.ofInt 32 (4 * imm16.toInt)) := by
  rw [← ite_not]
  exact linkAndBranchIf_writes_of_iff h

end

/-- Settles O49: the condition is computed before the link, so rs = 31 needs no case of its own. -/
theorem branchesAndLink : Obligations.BranchesAndLink := by
  refine ⟨?bltzalWord, ?bgezalWord, fun rs imm16 s => ⟨?bltzal, ?bgezal⟩⟩
  case bltzalWord | bgezalWord => exact decodesRegimm_of_fields fun _ => rfl
  case bltzal => exact linkAndBranchIf_writes_of_iff (Bool.eq_iff_iff.mp (isNegative_eq_signBit _))
  case bgezal => exact linkAndBranchIf_writes_of_iff_not (isNonNegative_iff_not_signBit _)

end Sys2Proof.Machine
end

section
/-! PROOFS. The identities between the products, the divider and the identities of the divisions (42_muldiv_hilo.md
R133, R134, R139). -/

namespace Sys2Proof.Machine

theorem WritesHiLo.hi_lo_of_next {o : Result} {s t : State} {hi lo : Word} (h : WritesHiLo o s hi lo)
    (ho : o = .next t) : t.hi = hi ∧ t.lo = lo := by
  obtain ⟨u, hu, -, hhi, hlo, -⟩ := h
  cases ho.symm.trans hu
  exact ⟨hhi, hlo⟩

/-! ### Signed and unsigned products (R139) -/

/-- The low half of a 64-bit pattern is the integer's own low pattern, the high half that of its quotient by 2^32. -/
theorem lowWord_ofInt (x : Int) : (BitVec.ofInt 64 x).extractLsb' 0 32 = BitVec.ofInt 32 x := by
  apply BitVec.eq_of_toNat_eq
  rw [BitVec.extractLsb'_toNat, BitVec.toNat_ofInt, BitVec.toNat_ofInt, Nat.shiftRight_zero]
  omega

theorem highWord_ofInt (x : Int) : (BitVec.ofInt 64 x).extractLsb' 32 32 = BitVec.ofInt 32 (x / 2 ^ 32) := by
  apply BitVec.eq_of_toNat_eq
  rw [BitVec.extractLsb'_toNat, BitVec.toNat_ofInt, BitVec.toNat_ofInt, Nat.shiftRight_eq_div_pow]
  omega

/-- `x` where the other operand's sign bit is set: what the signed product takes off the upper half. -/
def signCorrection (sign : Bool) (x : Word) : Word := if sign then x else 0#32

theorem ofInt_sub (x y : Int) : BitVec.ofInt 32 (x - y) = BitVec.ofInt 32 x - BitVec.ofInt 32 y := by
  rw [sub_eq_add_neg, BitVec.ofInt_add, BitVec.ofInt_neg, BitVec.sub_eq_add_neg]

theorem ofInt_toNat (x : Word) : BitVec.ofInt 32 x.toNat = x := by
  rw [BitVec.ofInt_natCast, BitVec.ofNat_toNat, BitVec.setWidth_eq]

theorem toInt_of_signBit {x : Word} (h : x.getLsbD 31 = true) : x.toInt = x.toNat - 2 ^ 32 := by
  rw [BitVec.toInt_eq_msb_cond, BitVec.msb_eq_getLsbD_last, h]
  rfl

theorem toInt_of_not_signBit {x : Word} (h : x.getLsbD 31 = false) : x.toInt = x.toNat := by
  rw [BitVec.toInt_eq_msb_cond, BitVec.msb_eq_getLsbD_last, h]
  rfl

/-- The signed product is the unsigned one less `k` times 2^32, with `k` the sum of the corrections modulo 2^32. -/
theorem exists_correction (a b : Word) :
    ∃ k : Int, a.toInt * b.toInt = (a.toNat * b.toNat : Nat) - k * 2 ^ 32 ∧
      BitVec.ofInt 32 k = signCorrection (a.getLsbD 31) b + signCorrection (b.getLsbD 31) a := by
  cases ha : a.getLsbD 31 <;> cases hb : b.getLsbD 31
  case false.false =>
    exact ⟨0, by rw [toInt_of_not_signBit ha, toInt_of_not_signBit hb]; push_cast; ring, rfl⟩
  case false.true =>
    exact ⟨a.toNat, by rw [toInt_of_not_signBit ha, toInt_of_signBit hb]; push_cast; ring,
      by rw [ofInt_toNat]; exact (BitVec.zero_add a).symm⟩
  case true.false =>
    exact ⟨b.toNat, by rw [toInt_of_signBit ha, toInt_of_not_signBit hb]; push_cast; ring,
      by rw [ofInt_toNat]; exact (BitVec.add_zero b).symm⟩
  case true.true =>
    exact ⟨b.toNat + a.toNat - 2 ^ 32, by rw [toInt_of_signBit ha, toInt_of_signBit hb]; push_cast; ring,
      by rw [ofInt_sub, BitVec.ofInt_add, ofInt_toNat, ofInt_toNat]; exact BitVec.sub_zero _⟩

theorem signedProduct_halves (a b : Word) :
    (BitVec.ofInt 64 (a.toInt * b.toInt)).extractLsb' 0 32 = (BitVec.ofNat 64 (a.toNat * b.toNat)).extractLsb' 0 32 ∧
    (BitVec.ofInt 64 (a.toInt * b.toInt)).extractLsb' 32 32 =
      (BitVec.ofNat 64 (a.toNat * b.toNat)).extractLsb' 32 32 - signCorrection (a.getLsbD 31) b -
        signCorrection (b.getLsbD 31) a := by
  obtain ⟨k, hproduct, hk⟩ := exists_correction a b
  rw [hproduct, ← BitVec.ofInt_natCast, lowWord_ofInt, lowWord_ofInt, highWord_ofInt, highWord_ofInt]
  constructor
  · rw [ofInt_sub, BitVec.ofInt_mul]
    exact (congrArg _ BitVec.mul_zero).trans (BitVec.sub_zero _)
  · rw [Int.sub_mul_ediv_right _ _ (by decide), ofInt_sub, hk, BitVec.sub_sub]

/-- Settles O38: HI and LO are the two halves. -/
theorem signedAndUnsignedProducts : Obligations.SignedAndUnsignedProducts := by
  intro rs rt s t u hmult hmultu
  obtain ⟨hhi, hlo⟩ := (writeProduct_writesHiLo s _).hi_lo_of_next hmult
  obtain ⟨hhi', hlo'⟩ := (writeProduct_writesHiLo s _).hi_lo_of_next hmultu
  obtain ⟨hlow, hhigh⟩ := signedProduct_halves (s.reg rs) (s.reg rt)
  exact ⟨hlo.trans (hlow.trans hlo'.symm), by rw [hhi, hhi', hhigh]; rfl⟩

/-! ### The divider -/

theorem toInt_eq_zero_iff {b : Word} : b.toInt = 0 ↔ b = 0#32 := by
  rw [← BitVec.toInt_inj]; rfl

theorem toNat_eq_zero_iff {b : Word} : b.toNat = 0 ↔ b = 0#32 := by
  rw [← BitVec.toNat_inj]; rfl

/-- R133, R134: each division tells a zero divisor by its integer value, which is 0 for the pattern 0 alone. -/
theorem exec_div_of_eq_zero {s : State} {rt : Reg} (rs : Reg) (h : s.reg rt = 0#32) :
    exec (.div rs rt) s = divideByZero s .div (s.reg rs) := if_pos (toInt_eq_zero_iff.mpr h)

theorem exec_div_of_ne_zero {s : State} {rt : Reg} (rs : Reg) (h : s.reg rt ≠ 0#32) :
    exec (.div rs rt) s =
      writeHiLoAndAdvance s (divSigned (s.reg rs) (s.reg rt)).2 (divSigned (s.reg rs) (s.reg rt)).1 :=
  if_neg (toInt_eq_zero_iff.not.mpr h)

theorem exec_divu_of_eq_zero {s : State} {rt : Reg} (rs : Reg) (h : s.reg rt = 0#32) :
    exec (.divu rs rt) s = divideByZero s .divu (s.reg rs) := if_pos (toNat_eq_zero_iff.mpr h)

theorem exec_divu_of_ne_zero {s : State} {rt : Reg} (rs : Reg) (h : s.reg rt ≠ 0#32) :
    exec (.divu rs rt) s =
      writeHiLoAndAdvance s (BitVec.ofNat 32 ((s.reg rs).toNat % (s.reg rt).toNat))
        (BitVec.ofNat 32 ((s.reg rs).toNat / (s.reg rt).toNat)) :=
  if_neg (toNat_eq_zero_iff.not.mpr h)

/-- The one pair whose quotient is no 32-bit signed value (R133, D9). -/
def DivOverflows (a b : Word) : Prop := a = 0x80000000#32 ∧ b = 0xffffffff#32

theorem divOverflows_iff {a b : Word} : DivOverflows a b ↔ a.toInt = -2 ^ 31 ∧ b.toInt = -1 := by
  rw [DivOverflows, ← BitVec.toInt_inj, ← BitVec.toInt_inj]; rfl

theorem divSigned_of_overflow {a b : Word} (h : DivOverflows a b) : divSigned a b = (0x80000000#32, 0x00000000#32) :=
  if_pos (divOverflows_iff.mp h)

theorem divSigned_of_not_overflow {a b : Word} (h : ¬ DivOverflows a b) :
    divSigned a b = (BitVec.ofInt 32 (a.toInt.tdiv b.toInt), BitVec.ofInt 32 (a.toInt.tmod b.toInt)) := by
  rw [divSigned, if_neg (divOverflows_iff.not.mp h), Int.tmod_def, mul_comm b.toInt]

/-- A zero divisor under each value of DIV0 (R133, D8). -/
theorem divideByZero_reports_of_unchanged {s : State} (h : s.cfg.div0 = .unchanged) (kind : DivKind) (dividend : Word) :
    ReportsOnly (divideByZero s kind dividend) s (.divideByZero kind) := by
  simpa [h, ReportsOnly] using divideByZero_reports s kind dividend

theorem divideByZero_reports_of_anyValue {s : State} (h : s.cfg.div0 = .anyValue) (kind : DivKind) (dividend : Word) :
    ReportsWithHiLo (divideByZero s kind dividend) s (.divideByZero kind)
      (Config.div0Result kind s.hi s.lo dividend).1 (Config.div0Result kind s.hi s.lo dividend).2 := by
  simpa [h] using divideByZero_reports s kind dividend

/-- Settles O39: one clause for each way the two tests, for zero and for overflow, come out. -/
theorem divideSigned : Obligations.DivideSigned := by
  refine ⟨decodesFunct_of_fields fun _ => rfl, fun rs rt s => ⟨fun hb hno => ?quotient, fun ha hb => ?overflow,
    fun hb hdiv0 => ?unchanged, fun hb hdiv0 => ?anyValue⟩⟩
  case quotient =>
    rw [exec_div_of_ne_zero rs hb, divSigned_of_not_overflow hno]
    exact writeHiLoAndAdvance_writesHiLo s _ _
  case overflow =>
    rw [exec_div_of_ne_zero rs (by rw [hb]; decide), divSigned_of_overflow ⟨ha, hb⟩]
    exact writeHiLoAndAdvance_writesHiLo s _ _
  case unchanged =>
    rw [exec_div_of_eq_zero rs hb]
    exact divideByZero_reports_of_unchanged hdiv0 _ _
  case anyValue =>
    rw [exec_div_of_eq_zero rs hb]
    exact divideByZero_reports_of_anyValue hdiv0 _ _

/-- Settles O40: an unsigned division has no overflow case. -/
theorem divideUnsigned : Obligations.DivideUnsigned := by
  refine ⟨decodesFunct_of_fields fun _ => rfl, fun rs rt s => ⟨fun hb => ?quotient, fun hb hdiv0 => ?unchanged,
    fun hb hdiv0 => ?anyValue⟩⟩
  case quotient =>
    rw [exec_divu_of_ne_zero rs hb]
    exact writeHiLoAndAdvance_writesHiLo s _ _
  case unchanged =>
    rw [exec_divu_of_eq_zero rs hb]
    exact divideByZero_reports_of_unchanged hdiv0 _ _
  case anyValue =>
    rw [exec_divu_of_eq_zero rs hb]
    exact divideByZero_reports_of_anyValue hdiv0 _ _

/-! ### The division identities (R139) -/

theorem toInt_ofInt_tdiv {a b : Word} (h : ¬ DivOverflows a b) :
    (BitVec.ofInt 32 (a.toInt.tdiv b.toInt)).toInt = a.toInt.tdiv b.toInt := by
  have hquotient : (a.sdiv b).toInt = a.toInt.tdiv b.toInt :=
    BitVec.toInt_sdiv_of_ne_or_ne a b (not_and_or.mp h)
  rw [← hquotient, BitVec.ofInt_toInt]

theorem toInt_ofInt_tmod (a b : Word) :
    (BitVec.ofInt 32 (a.toInt.tmod b.toInt)).toInt = a.toInt.tmod b.toInt := by
  rw [← BitVec.toInt_srem, BitVec.ofInt_toInt]

theorem toNat_ofNat_div (a b : Word) : (BitVec.ofNat 32 (a.toNat / b.toNat)).toNat = a.toNat / b.toNat := by
  rw [← BitVec.toNat_udiv, BitVec.ofNat_toNat, BitVec.setWidth_eq]

theorem toNat_ofNat_mod (a b : Word) : (BitVec.ofNat 32 (a.toNat % b.toNat)).toNat = a.toNat % b.toNat := by
  rw [← BitVec.toNat_umod, BitVec.ofNat_toNat, BitVec.setWidth_eq]

/-- The remainder of a truncating division is 0 or has the dividend's sign. -/
theorem tmod_eq_zero_or_pos_iff (a b : Int) : a.tmod b = 0 ∨ (0 < a.tmod b ↔ 0 < a) := by
  have hsign := Int.sign_tmod a b
  split at hsign
  · exact .inl (Int.sign_eq_zero_iff_zero.mp hsign)
  · exact .inr (by rw [← Int.sign_eq_one_iff_pos, hsign, Int.sign_eq_one_iff_pos])

theorem abs_tmod_lt (a : Int) {b : Int} (h : b ≠ 0) : |a.tmod b| < |b| := by
  rw [Int.abs_eq_natAbs, Int.abs_eq_natAbs, Int.natAbs_tmod]
  exact Int.ofNat_lt.mpr (Nat.mod_lt _ (Int.natAbs_pos.mpr h))

/-- Settles O41: HI and LO hold the exact quotient and remainder. -/
theorem divisionIdentities : Obligations.DivisionIdentities := by
  refine ⟨fun rs rt s t h hb hno => ?signed, fun rs rt s t h hb => ?unsigned⟩
  case signed =>
    rw [exec_div_of_ne_zero rs hb, divSigned_of_not_overflow hno] at h
    obtain ⟨hhi, hlo⟩ := (writeHiLoAndAdvance_writesHiLo s _ _).hi_lo_of_next h
    rw [hhi, hlo, toInt_ofInt_tdiv hno, toInt_ofInt_tmod]
    exact ⟨(Int.tdiv_mul_add_tmod _ _).symm, abs_tmod_lt _ (toInt_eq_zero_iff.not.mpr hb), tmod_eq_zero_or_pos_iff _ _⟩
  case unsigned =>
    rw [exec_divu_of_ne_zero rs hb] at h
    obtain ⟨hhi, hlo⟩ := (writeHiLoAndAdvance_writesHiLo s _ _).hi_lo_of_next h
    rw [hhi, hlo, toNat_ofNat_div, toNat_ofNat_mod]
    exact ⟨(Nat.div_add_mod' _ _).symm, Nat.mod_lt _ (Nat.pos_of_ne_zero (toNat_eq_zero_iff.not.mpr hb))⟩

end Sys2Proof.Machine
end

section
/-! PROOFS. What every instruction does (10_state.md R30, R31; 20_memory.md R41; 40_dispatch.md R92; 60_exceptions.md
R231): it faults on the first data call the collaborator faults on, or answers a next state in which only the fields its
rule lists have changed. -/

namespace Sys2Proof.Machine

/-- The diagnostic of a well-formed instruction (R231): a zero divisor is the only one. -/
def divDiag (i : Instr) (s : State) : Diag :=
  match i with
  | .div _ rt => if s.reg rt = 0#32 then .divideByZero .div else .none
  | .divu _ rt => if s.reg rt = 0#32 then .divideByZero .divu else .none
  | _ => .none

/-- What becomes of memory: it is kept by an instruction without a write call, and a write call writes a word that
changes no byte outside those the instruction stores. -/
def MemoryEffect (i : Instr) (s t : State) : Prop :=
  ((dataCalls i s).filterMap writeOf = [] ∧ KeepsMemory s t) ∨
    ∃ a n v, bytesStored i s = some (a, n) ∧ (dataCalls i s).filterMap writeOf = [(a, v)] ∧
      (s.cfg.mem = .reference → KeepsBytesOutside a n s (s.writeWord a v)) ∧ KeepsMemory (s.writeWord a v) t

/-- What a completed instruction leaves of each field. -/
structure Effect (i : Instr) (s t : State) : Prop where
  regs : ∀ r : Reg, regWritten i ≠ some r → t.reg r = s.reg r
  hi : mayWriteHi i = false → t.hi = s.hi
  lo : mayWriteLo i = false → t.lo = s.lo
  memory : MemoryEffect i s t
  run : (t.run = s.run ∧ t.out.runClear = s.out.runClear) ∨ (i = .syscall ∧ t.run = false ∧ t.out.runClear = true)
  cfg : t.cfg = s.cfg
  pc : mayOverridePc i = false → t.pc = s.pc + 4#32
  diag : i.wf = true → s.out.diag = .none → t.out.diag = divDiag i s

/-- The whole of an instruction's result: U4's fault on the first call the collaborator faults on, or its effect. -/
structure Performs (i : Instr) (s : State) (o : Result) : Prop where
  faults : ∀ c, (dataCalls i s).find? s.memFaults = some c → o = .fault (.memoryCollaborator c)
  answers : (dataCalls i s).find? s.memFaults = none → ∃ t, o = .next t ∧ Effect i s t

/-! ### Instructions that make no data call -/

section
variable {i : Instr} {s : State} {o : Result} (hcalls : dataCalls i s = [])
include hcalls

theorem performs_of_next {t : State} (ho : o = .next t) (h : Effect i s t) : Performs i s o where
  faults c hc := by simp [hcalls] at hc
  answers _ := ⟨t, ho, h⟩

theorem memoryEffect_of_keeps {t : State} (h : KeepsMemory s t) : MemoryEffect i s t := .inl ⟨by rw [hcalls]; rfl, h⟩

theorem WritesRegAndGoes.performs {rd : Reg} {v target : Word} (h : WritesRegAndGoes o s rd v target)
    (hreg : regWritten i = some rd) (hpc : mayOverridePc i = false → target = s.pc + 4#32)
    (hdiag : divDiag i s = .none) : Performs i s o := by
  obtain ⟨t, ho, htarget, -, hregs, ⟨hhi, hlo⟩, hmem, ⟨hrun, hcfg⟩, hout⟩ := h
  exact performs_of_next hcalls ho
    { regs := fun r hr => hregs r fun heq => hr (heq ▸ hreg)
      hi := fun _ => hhi
      lo := fun _ => hlo
      memory := memoryEffect_of_keeps hcalls hmem
      run := .inl ⟨hrun, by rw [hout]⟩
      cfg := hcfg
      pc := fun h => htarget.trans (hpc h)
      diag := fun _ hnone => by rw [hout, hnone, hdiag] }

theorem GoesTo.performs {target : Word} (h : GoesTo o s target)
    (hpc : mayOverridePc i = false → target = s.pc + 4#32) (hdiag : divDiag i s = .none) : Performs i s o := by
  obtain ⟨t, ho, htarget, hregs, ⟨hhi, hlo⟩, hmem, ⟨hrun, hcfg⟩, hout⟩ := h
  exact performs_of_next hcalls ho
    { regs := fun r _ => hregs r
      hi := fun _ => hhi
      lo := fun _ => hlo
      memory := memoryEffect_of_keeps hcalls hmem
      run := .inl ⟨hrun, by rw [hout]⟩
      cfg := hcfg
      pc := fun h => htarget.trans (hpc h)
      diag := fun _ hnone => by rw [hout, hnone, hdiag] }

theorem WritesHiLo.performs {hi lo : Word} (h : WritesHiLo o s hi lo) (hhi : mayWriteHi i = false → hi = s.hi)
    (hlo : mayWriteLo i = false → lo = s.lo) (hdiag : divDiag i s = .none) : Performs i s o := by
  obtain ⟨t, ho, hpc, hthi, htlo, hregs, hmem, ⟨hrun, hcfg⟩, hout⟩ := h
  exact performs_of_next hcalls ho
    { regs := fun r _ => hregs r
      hi := fun h => hthi.trans (hhi h)
      lo := fun h => htlo.trans (hlo h)
      memory := memoryEffect_of_keeps hcalls hmem
      run := .inl ⟨hrun, by rw [hout]⟩
      cfg := hcfg
      pc := fun _ => hpc
      diag := fun _ hnone => by rw [hout, hnone, hdiag] }

theorem ReportsWithHiLo.performs {d : Diag} {hi lo : Word} (h : ReportsWithHiLo o s d hi lo)
    (hhi : mayWriteHi i = false → hi = s.hi) (hlo : mayWriteLo i = false → lo = s.lo)
    (hdiag : i.wf = true → d = divDiag i s) : Performs i s o := by
  obtain ⟨t, ho, hpc, hthi, htlo, hregs, hmem, ⟨hrun, hcfg⟩, hout⟩ := h
  exact performs_of_next hcalls ho
    { regs := fun r _ => hregs r
      hi := fun h => hthi.trans (hhi h)
      lo := fun h => htlo.trans (hlo h)
      memory := memoryEffect_of_keeps hcalls hmem
      run := .inl ⟨hrun, by rw [hout]⟩
      cfg := hcfg
      pc := fun _ => hpc
      diag := fun hwf _ => by rw [hout]; exact hdiag hwf }

/-- The illegal form of an instruction, which no decoded one has. -/
theorem execIllegal_performs (m : Illegal) (hwf : i.wf = false) : Performs i s (execIllegal m s) :=
  (execIllegal_reportsOnly m s).performs hcalls (fun _ => rfl) (fun _ => rfl) fun h => absurd h (by simp [hwf])

end

theorem clearRun_performs (s : State) : Performs .syscall s (.next s.clearRun) :=
  performs_of_next rfl rfl
    { regs := fun _ _ => rfl
      hi := fun _ => rfl
      lo := fun _ => rfl
      memory := memoryEffect_of_keeps rfl (keepsMemory_of_eq rfl rfl rfl)
      run := .inr ⟨rfl, rfl, rfl⟩
      cfg := rfl
      pc := nofun
      diag := fun _ hnone => hnone }

theorem div_performs (rs rt : Reg) (s : State) : Performs (.div rs rt) s (exec (.div rs rt) s) := by
  by_cases h : s.reg rt = 0#32
  · rw [exec_div_of_eq_zero rs h]
    exact (divideByZero_reports s .div (s.reg rs)).performs rfl nofun nofun fun _ => (if_pos h).symm
  · rw [exec_div_of_ne_zero rs h]
    exact (writeHiLoAndAdvance_writesHiLo s _ _).performs rfl nofun nofun (if_neg h)

theorem divu_performs (rs rt : Reg) (s : State) : Performs (.divu rs rt) s (exec (.divu rs rt) s) := by
  by_cases h : s.reg rt = 0#32
  · rw [exec_divu_of_eq_zero rs h]
    exact (divideByZero_reports s .divu (s.reg rs)).performs rfl nofun nofun fun _ => (if_pos h).symm
  · rw [exec_divu_of_ne_zero rs h]
    exact (writeHiLoAndAdvance_writesHiLo s _ _).performs rfl nofun nofun (if_neg h)

/-! ### Loads and stores -/

theorem Loads.effect {i : Instr} {s : State} {o : Result} {rt : Reg} {v a : Word} (h : Loads o s rt v a)
    (hcalls : dataCalls i s = [.read a]) (hreg : regWritten i = some rt) (hdiag : divDiag i s = .none) :
    ∃ t, o = .next t ∧ Effect i s t := by
  obtain ⟨t, ho, hpc, -, hregs, ⟨hhi, hlo⟩, hmem, ⟨hrun, hcfg⟩, hout⟩ := h
  exact ⟨t, ho,
    { regs := fun r hr => hregs r fun heq => hr (heq ▸ hreg)
      hi := fun _ => hhi
      lo := fun _ => hlo
      memory := .inl ⟨by rw [hcalls]; rfl, hmem⟩
      run := .inl ⟨hrun, by rw [hout]⟩
      cfg := hcfg
      pc := fun _ => hpc
      diag := fun _ hnone => by rw [hout]; exact hnone.trans hdiag.symm }⟩

theorem WritesWord.effect {i : Instr} {s : State} {o : Result} {a v : Word} {n : Nat} {calls : List MemCall}
    (h : WritesWord o s a v calls) (hwrites : (dataCalls i s).filterMap writeOf = [(a, v)])
    (hbytes : bytesStored i s = some (a, n))
    (hout : s.cfg.mem = .reference → KeepsBytesOutside a n s (s.writeWord a v)) (hdiag : divDiag i s = .none) :
    ∃ t, o = .next t ∧ Effect i s t := by
  obtain ⟨t, ho, hpc, hmem, hregs, ⟨hhi, hlo⟩, ⟨hrun, hcfg⟩, hports⟩ := h
  exact ⟨t, ho,
    { regs := fun r _ => hregs r
      hi := fun _ => hhi
      lo := fun _ => hlo
      memory := .inr ⟨a, n, v, hbytes, hwrites, hout, hmem⟩
      run := .inl ⟨hrun, by rw [hports]⟩
      cfg := hcfg
      pc := fun _ => hpc
      diag := fun _ hnone => by rw [hports]; exact hnone.trans hdiag.symm }⟩

theorem loadWith_performs {i : Instr} {s : State} {a : Word} (pick : Word → Word) {rt rs : Reg} {imm16 : BitVec 16}
    (ha : a = effAddr s rs imm16) (hcalls : dataCalls i s = [.read a]) (hreg : regWritten i = some rt)
    (hdiag : divDiag i s = .none) : Performs i s (loadWith pick rt rs imm16 s) := by
  refine ⟨fun c hc => ?_, fun hnone => ?_⟩
  · obtain ⟨hr, rfl⟩ : s.memFaults (.read a) = true ∧ .read a = c := by simpa [hcalls] using hc
    rw [loadWith, ← ha, memRead_of_fault hr]
  · have hr : s.memFaults (.read a) = false := by simpa [hcalls] using hnone
    subst ha
    exact (loadWith_loads pick rt rs imm16 hr).effect hcalls hreg hdiag

section
variable {i : Instr} {n : Nat} {rt rs : Reg} {imm16 : BitVec 16} {s : State} {a v : Word} (ha : a = effAddr s rs imm16)
  (hdiag : divDiag i s = .none) (hbytes : bytesStored i s = some (a, n))
  (hout : s.cfg.mem = .reference → KeepsBytesOutside a n s (s.writeWord a v))
include ha hdiag hbytes hout

theorem storeMerged_performs (merge : Word → Word → Word) (hv : v = merge (s.readWord a) (s.reg rt))
    (hcalls : dataCalls i s = [.read a, .write a v]) : Performs i s (storeMerged merge rt rs imm16 s) := by
  cases hr : s.memFaults (.read a)
  case true =>
    refine ⟨fun c hc => ?_, fun hnone => by simp [hcalls, hr] at hnone⟩
    obtain rfl : .read a = c := by simpa [hcalls, hr] using hc
    rw [storeMerged, ← ha, memRead_of_fault hr]
  case false =>
    refine ⟨fun c hc => ?_, fun hnone => ?_⟩
    · obtain ⟨hw, rfl⟩ : s.memFaults (.write a v) = true ∧ .write a v = c := by simpa [hcalls, hr] using hc
      rw [storeMerged, ← ha, memRead_of_answer hr, ← hv]
      exact memWrite_of_fault (s := s.call _) hw _
    · have hw : s.memFaults (.write a v) = false := by simpa [hcalls, hr] using hnone
      subst ha hv
      exact (storeMerged_writesWord merge rt rs imm16 hr hw).effect (by rw [hcalls]; rfl) hbytes hout hdiag

theorem execSw_performs (hv : v = s.reg rt) (hcalls : dataCalls i s = [.write a v]) :
    Performs i s (execSw rt rs imm16 s) := by
  refine ⟨fun c hc => ?_, fun hnone => ?_⟩
  · obtain ⟨hw, rfl⟩ : s.memFaults (.write a v) = true ∧ .write a v = c := by simpa [hcalls] using hc
    rw [execSw, ← ha, ← hv, memWrite_of_fault hw]
  · have hw : s.memFaults (.write a v) = false := by simpa [hcalls] using hnone
    subst ha hv
    exact (execSw_writesWord rt rs imm16 hw).effect (by rw [hcalls]; rfl) hbytes hout hdiag

end

/-! ### Every instruction -/

theorem exec_performs (i : Instr) (s : State) : Performs i s (exec i s) := by
  cases i with
  | sll | srl | sra | sllv | srlv | srav | mfhi | mflo | add | addu | sub | subu | and | or | xor | nor | slt | sltu
  | addi | addiu | andi | ori | xori => exact (writeAndAdvance_writesReg s _ _).performs rfl rfl (fun _ => rfl) rfl
  | lui rt rs imm16 =>
    rw [exec_lui]
    split
    next hzero => exact (writeAndAdvance_writesReg s rt _).performs rfl (if_pos hzero) (fun _ => rfl) rfl
    next hne => exact execIllegal_performs rfl .lui (beq_eq_false_iff_ne.mpr hne)
  | mthi rs => exact (writeHiLoAndAdvance_writesHiLo s (s.reg rs) s.lo).performs rfl nofun (fun _ => rfl) rfl
  | mtlo rs => exact (writeHiLoAndAdvance_writesHiLo s s.hi (s.reg rs)).performs rfl (fun _ => rfl) nofun rfl
  | mult | multu => exact (writeProduct_writesHiLo s _).performs rfl nofun nofun rfl
  | div rs rt => exact div_performs rs rt s
  | divu rs rt => exact divu_performs rs rt s
  | beq | bne | bltz | bgez => exact (branchIf_goesTo s _ _).performs rfl nofun rfl
  | blez rs rt imm16 =>
    rw [exec_blez]
    split
    next => exact (branchIf_goesTo s _ _).performs rfl nofun rfl
    next hne => exact execIllegal_performs rfl .blez (beq_eq_false_iff_ne.mpr hne)
  | bgtz rs rt imm16 =>
    rw [exec_bgtz]
    split
    next => exact (branchIf_goesTo s _ _).performs rfl nofun rfl
    next hne => exact execIllegal_performs rfl .bgtz (beq_eq_false_iff_ne.mpr hne)
  | bltzal | bgezal => exact (linkAndBranchIf_writes s _ _).performs rfl rfl nofun rfl
  | j | jr => exact (jumpTo_goesTo s _).performs rfl nofun rfl
  | jal | jalr => exact (setReg_jumpTo_writes s _ _ _).performs rfl rfl nofun rfl
  | syscall =>
    by_cases h : s.reg 2 = 0x0000000a#32
    · rw [exec_syscall_of_exit h]
      exact clearRun_performs s
    · rw [exec_syscall_of_ne_exit h]
      exact (advance_goesTo s).performs rfl nofun rfl
  | lb rt rs imm16 | lh rt rs imm16 | lw rt rs imm16 | lbu rt rs imm16 | lhu rt rs imm16 =>
    simp only [exec, execLb, execLh, execLw, execLbu, execLhu]
    exact loadWith_performs _ rfl rfl rfl rfl
  | sb rt rs imm16 =>
    refine storeMerged_performs rfl rfl rfl (fun href b hb => ?_) mergeByte rfl rfl
    rw [mergeByte_eq, byteAt_writeWord_byte (meetsContract_of_reference href), if_neg (by simpa using hb 0 (by omega))]
  | sh rt rs imm16 =>
    refine storeMerged_performs rfl rfl rfl (fun href b hb => ?_) mergeHalf rfl rfl
    rw [mergeHalf_eq, byteAt_writeWord_half (meetsContract_of_reference href), if_neg (by simpa using hb 0 (by omega)),
      if_neg (hb 1 (by omega))]
  | sw rt rs imm16 =>
    refine execSw_performs rfl rfl rfl (fun href b hb => ?_) rfl rfl
    rw [byteAt_writeWord_of_reference href, byteAt_of_reference href, Memory.readByte_writeWord_outside _ _ _ _ hb]

theorem exec_effect {i : Instr} {s t : State} (h : exec i s = .next t) : Effect i s t := by
  cases hfind : (dataCalls i s).find? s.memFaults with
  | some c => cases h.symm.trans ((exec_performs i s).faults c hfind)
  | none =>
    obtain ⟨u, hu, heffect⟩ := (exec_performs i s).answers hfind
    cases h.symm.trans hu
    exact heffect

end Sys2Proof.Machine
end

section
/-! PROOFS. The step (40_dispatch.md R90 to R98, 10_state.md R22 to R36): what it runs, when it completes, faults or is
refused, what it changes, and the invariant of a run. -/

namespace Sys2Proof.Machine

/-! ### Every instruction: frame and default PC -/

section
variable {i : Instr} {s t : State} (h : MemoryEffect i s t)
include h

theorem MemoryEffect.keepsMemory (hbytes : bytesStored i s = none) : KeepsMemory s t := by
  rcases h with ⟨-, hkeep⟩ | ⟨a, n, v, hstored, -⟩
  · exact hkeep
  · cases hbytes.symm.trans hstored

theorem MemoryEffect.keepsBytesOutside {a : Word} {n : Nat} (hbytes : bytesStored i s = some (a, n))
    (href : s.cfg.mem = .reference) : KeepsBytesOutside a n s t := by
  rcases h with ⟨-, hkeep, -⟩ | ⟨a', n', v, hstored, -, hout, hwritten, -⟩
  · exact fun b _ => hkeep b
  · cases hbytes.symm.trans hstored
    exact fun b hb => (hwritten b).trans (hout href b hb)

theorem MemoryEffect.accepts_writes {n : Nat} (hother : s.cfg.mem = .other n) :
    t.mem = s.mem ∧ t.writes = s.writes ++ (dataCalls i s).filterMap writeOf := by
  rcases h with ⟨hnone, -, hmem, hwrites⟩ | ⟨a, _, v, -, hwrite, -, -, hmem, hwrites⟩
  · exact ⟨hmem, by rw [hwrites, hnone, List.append_nil]⟩
  · exact ⟨hmem.trans (State.writeWord_mem_of_other hother a v),
      by rw [hwrites, State.writeWord_writes_of_other hother, hwrite]⟩

theorem MemoryEffect.mem_wf (hwf : s.mem.wf) : t.mem.wf := by
  rcases h with ⟨-, -, hmem, -⟩ | ⟨a, _, v, -, -, -, -, hmem, -⟩
  · rwa [hmem]
  · rw [hmem]
    cases hcfg : s.cfg.mem with
    | reference => rw [State.writeWord_mem_of_reference hcfg]; exact Memory.wf_writeWord hwf a v
    | other n => rwa [State.writeWord_mem_of_other hcfg]

theorem MemoryEffect.writes_of_reference (href : s.cfg.mem = .reference) : t.writes = s.writes := by
  rcases h with ⟨-, -, -, hwrites⟩ | ⟨a, _, v, -, -, -, -, -, hwrites⟩
  · exact hwrites
  · exact hwrites.trans (State.writeWord_writes_of_reference href a v)

end

/-- Settles O16: each clause is a field of the instruction's effect, or follows from what it does to memory. -/
theorem onlyListedFieldsChange : Obligations.OnlyListedFieldsChange := by
  intro i s t h
  have heffect := exec_effect h
  refine ⟨heffect.regs, heffect.hi, heffect.lo, heffect.memory.keepsMemory,
    fun a n hbytes href => heffect.memory.keepsBytesOutside hbytes href,
    fun n hother => heffect.memory.accepts_writes hother, fun hne => ?run, heffect.cfg⟩
  case run =>
    obtain ⟨hrun, -⟩ | ⟨hsyscall, -⟩ := heffect.run
    · exact hrun
    · exact absurd hsyscall hne

/-- Settles O18: the default PC is a field of the instruction's effect. -/
theorem defaultPcRule : Obligations.DefaultPcRule := fun _ _ _ h hpc => (exec_effect h).pc hpc

/-! ### What a step runs -/

theorem step_of_decoded {s : State} {d : Decoded} (hrun : s.run = true) (hfetch : s.memFaults (.read s.pc) = false)
    (hd : decodeWord (fetchedWord s) = d) : step s = commitResult (execDecoded d (afterFetch s)) :=
  hd ▸ step_eq_of_fetch hrun hfetch

/-- Settles O10: on the reference memory the fetched word is the four bytes at the PC by definition. -/
theorem stepRunsDecodedInstruction : Obligations.StepRunsDecodedInstruction := by
  refine ⟨fun s i hrun hfetch _ hd => step_of_decoded hrun hfetch hd, fun s i href hrun _ hd => ?reference⟩
  case reference =>
    have hword : fetchedWord s = s.mem.readWord s.pc := State.readWord_of_reference href s.pc
    exact step_of_decoded hrun (State.memFaults_of_reference href _) ((congrArg decodeWord hword).trans hd)

/-- Settles O11: the report is the whole effect, and a step with an answered fetch runs what it decodes. -/
theorem unrecognisedAndIllegalOnlyAdvance : Obligations.UnrecognisedAndIllegalOnlyAdvance := by
  refine ⟨fun u s => ?unknown, fun m s => execIllegal_reportsOnly m s,
    fun s u hrun hfetch hd => step_of_decoded hrun hfetch hd, fun s m hrun hfetch hd => step_of_decoded hrun hfetch hd⟩
  case unknown => cases u <;> exact execUnknown_reportsOnly _ s

/-! ### Completion, faults and refusals -/

section
variable {d : Decoded} {s : State}

theorem ReportsWithHiLo.completes {o : Result} {dg : Diag} {hi lo : Word} (h : ReportsWithHiLo o s dg hi lo) :
    ∃ t, o = .next t := by
  obtain ⟨t, ho, -⟩ := h
  exact ⟨t, ho⟩

theorem execDecoded_of_fault {c : MemCall} (h : (dataCallsOf d s).find? s.memFaults = some c) :
    execDecoded d s = .fault (.memoryCollaborator c) := by
  cases d with
  | instr i => exact (exec_performs i s).faults c h
  | unknown u => cases h
  | illegal m => cases h

theorem execDecoded_of_answer (h : (dataCallsOf d s).find? s.memFaults = none) : ∃ t, execDecoded d s = .next t := by
  cases d with
  | instr i =>
    obtain ⟨t, ht, -⟩ := (exec_performs i s).answers h
    exact ⟨t, ht⟩
  | unknown u => exact (execUnknown_reportsOnly u s).completes
  | illegal m => exact (execIllegal_reportsOnly m s).completes

/-- The calls of a step, its fetch first (20_memory.md R42). -/
def stepCalls (s : State) : List MemCall := .read s.pc :: dataCallsOf (decodeWord (fetchedWord s)) s

theorem step_of_fault {c : MemCall} (hrun : s.run = true) (h : (stepCalls s).find? s.memFaults = some c) :
    step s = .fault (.memoryCollaborator c) := by
  cases hfetch : s.memFaults (.read s.pc) with
  | true =>
    obtain rfl : .read s.pc = c := by simpa [stepCalls, hfetch] using h
    exact step_of_fetch_fault hrun hfetch
  | false =>
    have hdata : (dataCallsOf (decodeWord (fetchedWord s)) s).find? s.memFaults = some c := by
      simpa [stepCalls, hfetch] using h
    rw [step_eq_of_fetch hrun hfetch, execDecoded_of_fault (s := afterFetch s) hdata]
    rfl

theorem step_of_answer (hrun : s.run = true) (h : (stepCalls s).find? s.memFaults = none) : ∃ t, step s = .next t := by
  obtain ⟨hfetch, hdata⟩ := List.forall_mem_cons.mp (List.find?_eq_none.mp h)
  obtain ⟨u, hu⟩ := execDecoded_of_answer (s := afterFetch s) (List.find?_eq_none.mpr hdata)
  exact ⟨u.commit, step_of_exec hrun (by simpa using hfetch) hu⟩

theorem step_of_stopped (hrun : s.run = false) : step s = .refused .runFlagClear := by rw [step, hrun]; rfl

theorem find?_eq_none_of_forall {calls : List MemCall} (h : ∀ c ∈ calls, s.memFaults c = false) :
    calls.find? s.memFaults = none := List.find?_eq_none.mpr fun c hc => by simp [h c hc]

theorem find?_eq_none_of_reference (h : s.cfg.mem = .reference) (calls : List MemCall) :
    calls.find? s.memFaults = none :=
  find?_eq_none_of_forall fun c _ => State.memFaults_of_reference h c

end

/-- Settles O12: where the collaborator faults on none of the calls, there is no first call it faults on. -/
theorem everyRunningStepCompletes : Obligations.EveryRunningStepCompletes :=
  ⟨fun i _ h => execDecoded_of_answer (d := .instr i) (find?_eq_none_of_forall h),
    fun _ hrun hfetch hdata => step_of_answer hrun (find?_eq_none_of_forall (List.forall_mem_cons.mpr ⟨hfetch, hdata⟩)),
    fun i _ href => execDecoded_of_answer (d := .instr i) (find?_eq_none_of_reference href _),
    fun _ href hrun => step_of_answer hrun (find?_eq_none_of_reference href _)⟩

/-- A result that names the first fault of a list of calls, or is a next state, is a fault in the first case alone. -/
theorem eq_fault_iff {o : Result} {s : State} {calls : List MemCall} {f : Fault}
    (hfault : ∀ c, calls.find? s.memFaults = some c → o = .fault (.memoryCollaborator c))
    (hanswer : calls.find? s.memFaults = none → ∃ t, o = .next t) :
    o = .fault f ↔ ∃ c, calls.find? s.memFaults = some c ∧ f = .memoryCollaborator c := by
  cases hfind : calls.find? s.memFaults with
  | some c => simp [hfault c hfind, eq_comm]
  | none =>
    obtain ⟨t, rfl⟩ := hanswer hfind
    simp

/-- Settles O58: an instruction, and a step with the run flag true, is decided by the first faulting call. -/
theorem onlyTheCollaboratorFaults : Obligations.OnlyTheCollaboratorFaults := by
  refine ⟨fun i s f => eq_fault_iff (fun c => execDecoded_of_fault (d := .instr i))
    (execDecoded_of_answer (d := .instr i)), fun s f => ?step⟩
  case step =>
    cases hrun : s.run with
    | false => simp [step_of_stopped hrun]
    | true =>
      rw [eq_fault_iff (fun c => step_of_fault hrun) (step_of_answer hrun)]
      exact (and_iff_right rfl).symm

theorem step_ne_refused {s : State} (hrun : s.run = true) (r : Refusal) : step s ≠ .refused r := by
  cases hfind : (stepCalls s).find? s.memFaults with
  | some c => simp [step_of_fault hrun hfind]
  | none =>
    obtain ⟨t, ht⟩ := step_of_answer hrun hfind
    simp [ht]

/-- Settles O13: a running step is a fault or a next state. -/
theorem stoppedMachineHasNoStep : Obligations.StoppedMachineHasNoStep := by
  refine fun s => ⟨step_of_stopped, fun r h => ?_⟩
  by_contra hrun
  exact step_ne_refused (by simpa using hrun) r h

/-! ### The parameters and the layer above the CORE -/

theorem execDecoded_cfg {d : Decoded} {s t : State} (h : execDecoded d s = .next t) : t.cfg = s.cfg := by
  cases d with
  | instr i => exact (exec_effect h).cfg
  | unknown u => exact ((execUnknown_reportsOnly u s).answerKeeps t h).2
  | illegal m => exact ((execIllegal_reportsOnly m s).answerKeeps t h).2

/-- Settles O22: the commit is all that a step adds to the dispatch's result. -/
theorem hardwiredZeroLayer : Obligations.HardwiredZeroLayer := by
  intro s t h
  obtain ⟨-, -, u, hexec, rfl⟩ := step_next_inv h
  have hcfg : u.cfg = s.cfg := (execDecoded_cfg hexec).trans rfl
  refine ⟨by rw [commit_cfg, hcfg], u, hexec, fun hzero => commit_of_false (by rw [hcfg, hzero]), fun hzero => ?layer⟩
  case layer =>
    rw [← hcfg] at hzero
    exact ⟨by simp [commit_reg, hzero], fun r hr => by simp [commit_reg, hr], commit_pc u, ⟨commit_hi u, commit_lo u⟩,
      keepsMemory_commit u, ⟨commit_run u, commit_cfg u⟩, commit_out u⟩

/-! ### The end of a run -/

/-- Settles O15: only the exit SYSCALL stops the machine, and its whole effect is `clearRun`, then committed. -/
theorem haltedStateIsTheOnlyFinalState : Obligations.HaltedStateIsTheOnlyFinalState := by
  intro s t h
  refine ⟨fun hstopped => ?halted, fun hrun => ⟨step_ne_refused hrun, fun href =>
    step_of_answer hrun (find?_eq_none_of_reference href _)⟩⟩
  case halted =>
    obtain ⟨hdecode, hexit⟩ := (step_run_eq_false_iff h).mp hstopped
    obtain ⟨-, -, u, hexec, rfl⟩ := step_next_inv h
    rw [hdecode] at hexec
    cases (exec_syscall_of_exit (s := afterFetch s) hexit).symm.trans hexec
    refine ⟨hdecode, commit_pc _, commit_reg _, commit_hi _, commit_lo _, ?memory, ?runClear, step_of_stopped hstopped⟩
    case memory => exact keepsMemory_of_eq (commit_cfg _) (commit_mem _) (commit_writes _)
    case runClear => rw [commit_out]; rfl

/-! ### The diagnostic -/

theorem stepDiag_of_instr {w : Word} {i : Instr} (h : decodeWord w = .instr i) (s : State) :
    stepDiag w s = divDiag i s := by
  rw [stepDiag, h]
  cases i <;> rfl

theorem stepDiag_of_unknown {w : Word} {u : Unknown} (h : decodeWord w = .unknown u) (s : State) :
    stepDiag w s = diagOfUnknown u := by
  rw [stepDiag, h]
  cases u <;> rfl

theorem stepDiag_of_illegal {w : Word} {m : Illegal} (h : decodeWord w = .illegal m) (s : State) :
    stepDiag w s = .illegalOperand m := by rw [stepDiag, h]

theorem ReportsWithHiLo.diag_of_next {o : Result} {s t : State} {d : Diag} {hi lo : Word}
    (h : ReportsWithHiLo o s d hi lo) (ho : o = .next t) : t.out.diag = d := by
  obtain ⟨u, hu, -, -, -, -, -, -, hout⟩ := h
  cases ho.symm.trans hu
  rw [hout]

/-- Settles O19: a decoded instruction is well formed, so its diagnostic is none but that of a zero divisor. -/
theorem stepDiagnostic : Obligations.StepDiagnostic := by
  intro s t h
  obtain ⟨-, -, u, hexec, rfl⟩ := step_next_inv h
  rw [commit_out]
  cases hd : decodeWord (fetchedWord s) with
  | instr i =>
    obtain ⟨hwf, -⟩ := encodesReadBits_of_decodeWord hd
    rw [hd] at hexec
    rw [stepDiag_of_instr hd, (exec_effect hexec).diag hwf rfl]
    cases i <;> rfl
  | unknown v =>
    rw [hd] at hexec
    rw [stepDiag_of_unknown hd]
    exact (execUnknown_reportsOnly v _).diag_of_next hexec
  | illegal m =>
    rw [hd] at hexec
    rw [stepDiag_of_illegal hd]
    exact (execIllegal_reportsOnly m _).diag_of_next hexec

/-! ### What a step depends on -/

theorem step_beginStep (s : State) : step s.beginStep = step s := rfl

/-- Settles O20: the fetch puts the ports back to idle first (10_state.md R33). -/
theorem outputsAreNotReadBack : Obligations.OutputsAreNotReadBack := by
  intro s o
  calc step { s with out := o } = step ({ s with out := o } : State).beginStep := (step_beginStep _).symm
    _ = step s := step_beginStep s

/-- Settles O21: but for the ports, two such states are one. -/
theorem stepDependsOnArchitectureOnly : Obligations.StepDependsOnArchitectureOnly := by
  intro s s' hwf hwf' hpc hregs hhilo hread hwrites hrc
  have hmem : s'.mem = s.mem := canonicalMemoriesAreEqual _ _ hwf' hwf hread
  have hsame : s'.beginStep = s.beginStep :=
    State.ext_reg hpc hregs hhilo.1 hhilo.2 hmem hwrites hrc.1 rfl hrc.2
  rw [← step_beginStep s', hsame, step_beginStep]

/-! ### The invariant of a run -/

/-- The clauses of the invariant that execution itself keeps; the zero register is the commit's. -/
structure State.CoreInv (s : State) : Prop where
  memWf : s.mem.wf
  runClearIff : s.out.runClear = !s.run
  contentsInMem : s.cfg.mem = .reference → s.writes = []

theorem Effect.coreInv {i : Instr} {s t : State} (h : Effect i s t) (hs : s.CoreInv) : t.CoreInv where
  memWf := h.memory.mem_wf hs.memWf
  runClearIff := by
    obtain ⟨hrun, hclear⟩ | ⟨-, hrun, hclear⟩ := h.run
    · rw [hclear, hrun, hs.runClearIff]
    · rw [hclear, hrun]; rfl
  contentsInMem href := by
    rw [h.cfg] at href
    rw [h.memory.writes_of_reference href, hs.contentsInMem href]

theorem ReportsWithHiLo.coreInv_of_next {o : Result} {s t : State} {d : Diag} {hi lo : Word}
    (h : ReportsWithHiLo o s d hi lo) (hs : s.CoreInv) (ho : o = .next t) : t.CoreInv := by
  obtain ⟨u, hu, -, -, -, -, ⟨-, hmem, hwrites⟩, ⟨hrun, hcfg⟩, hout⟩ := h
  cases ho.symm.trans hu
  exact ⟨by rw [hmem]; exact hs.memWf, by rw [hout, hrun]; exact hs.runClearIff,
    by rw [hcfg, hwrites]; exact hs.contentsInMem⟩

theorem execDecoded_coreInv {d : Decoded} {s t : State} (hs : s.CoreInv) (h : execDecoded d s = .next t) :
    t.CoreInv := by
  cases d with
  | instr i => exact (exec_effect h).coreInv hs
  | unknown u => exact (execUnknown_reportsOnly u s).coreInv_of_next hs h
  | illegal m => exact (execIllegal_reportsOnly m s).coreInv_of_next hs h

theorem coreInv_afterFetch {s : State} (hs : s.Inv) (hrun : s.run = true) : (afterFetch s).CoreInv :=
  ⟨hs.memWf, congrArg not hrun.symm, hs.contentsInMem⟩

theorem inv_commit {s : State} (hs : s.CoreInv) : s.commit.Inv where
  memWf := by rw [commit_mem]; exact hs.memWf
  zeroHeld hzero := by
    rw [commit_cfg] at hzero
    rw [commit_reg, if_pos ⟨hzero, rfl⟩]
  runClearIff := by rw [commit_out, commit_run]; exact hs.runClearIff
  contentsInMem := by rw [commit_cfg, commit_writes]; exact hs.contentsInMem

/-- Settles O24: from the state after the fetch, execution keeps all but the zero register's clause, and the commit
establishes that one. -/
theorem stepKeepsInvariant : Obligations.StepKeepsInvariant := by
  intro s t hs h
  obtain ⟨hrun, -, u, hexec, rfl⟩ := step_next_inv h
  exact inv_commit (execDecoded_coreInv (coreInv_afterFetch hs hrun) hexec)

/-! ### Reset -/

/-- Settles O23: nothing is listed in memory and the zero register's clause is void. -/
theorem resetMeetsInvariant : Obligations.ResetMeetsInvariant :=
  ⟨Memory.wf_nil, nofun, rfl, fun _ => rfl⟩

theorem reset_reg (r : Reg) : State.reset.reg r = 0#32 := Vector.getElem_replicate _

/-- Settles O25: every field but the register file is the value `State.reset` names. -/
theorem resetIsTheVectorsStartState : Obligations.ResetIsTheVectorsStartState :=
  ⟨rfl, rfl, reset_reg, rfl, rfl, fun _ => rfl, rfl, rfl, rfl⟩

/-! ### A store over the next instruction -/

/-- Settles O31: by M3 the fetch at the next PC is answered with the stored word. -/
theorem storeIsSeenByNextFetch : Obligations.StoreIsSeenByNextFetch := by
  intro s t rt rs imm16 hcontract h hdecode haddr
  obtain ⟨hrun, -, u, hexec, rfl⟩ := step_next_inv h
  rw [hdecode] at hexec
  obtain ⟨v, hv, hpc, ⟨-, hmem, hwrites⟩, -, -, ⟨hrunKept, hcfg⟩, -⟩ :=
    execSw_writesWord rt rs imm16 (hcontract.total (afterFetch s) (.write (effAddr s rs imm16) (s.reg rt)) rfl)
  cases hv.symm.trans hexec
  have hword : fetchedWord u.commit = s.reg rt := by
    rw [fetchedWord, readWord_commit, commit_pc, hpc]
    rw [State.readWord_congr (s := (afterFetch s).writeWord _ _) (congrArg Config.mem hcfg) hmem hwrites]
    exact haddr ▸ hcontract.m3 (afterFetch s) _ _ rfl
  refine ⟨(commit_pc u).trans hpc, hword, ?_⟩
  rw [← hword]
  have hrun' : u.commit.run = true := by rw [commit_run, hrunKept]; exact hrun
  exact step_eq_of_fetch hrun' (hcontract.total _ _ (by rw [commit_cfg, hcfg]; rfl))

end Sys2Proof.Machine
end
